-- ==== Sys2Proof/Word.lean ====
section
/-! DEFINITION. The word types of the chip8rs core (spec 00_scope.md R7, R9, R10): bytes, 16-bit words, the 12-bit
address immediate, and the 4-bit register number. Every value is unsigned and no instruction sign-extends: `zext_N` is
`BitVec.setWidth`, and `sext_N`, which R10 defines and says is never used, is `BitVec.signExtend`. -/

namespace Sys2Proof

/-- An 8-bit value: a memory byte, a general register, a timer (R7 `V_WIDTH`, `DT_WIDTH`, `ST_WIDTH`). -/
abbrev Byte := BitVec 8

/-- A 16-bit value: an opcode, `pc`, `I`, a call-stack entry (R7 `OPCODE_WIDTH`, `PC_WIDTH`, `I_WIDTH`,
`STACK_ENTRY_WIDTH`). -/
abbrev Word := BitVec 16

/-- The 12-bit address immediate `nnn` (30_encoding.md R81). -/
abbrev Addr12 := BitVec 12

/-- A general register's number, 0..15 (10_state.md R22); also the number of a logical key (R31). -/
abbrev Reg := Fin 16

/-- The 4-bit sprite height `n`, 0..15 (30_encoding.md R81, R83). -/
abbrev Height := Fin 16

/-- The flag register's number: `VF` is `V[15]` (00_scope.md R11, 10_state.md R24). -/
abbrev VF : Reg := 15

end Sys2Proof
end

