-- ==== Sys2Proof/Config.lean ====
section
/-! DEFINITION. What the spec calls configuration points (00_scope.md R8), as types, and the one free value of the model
(the random byte of 10_state.md R32). The VALUES this hardware has are `Sys2Proof.Machine.decidedConfig`. -/

namespace Sys2Proof

/-- `SUB_VF` (R8, decision D6): the polarity of the borrow flag of SUB and SUBN. -/
inductive SubVf where
  | notBorrow
  | borrow
deriving DecidableEq, Repr

/-- `SHIFT_SRC` (R8, D7): which register SHR and SHL shift. -/
inductive ShiftSrc where
  | vx
  | vy
deriving DecidableEq, Repr

/-- `SHIFT_VF` (R8, D8): the shifted-out bit as 0 or 1, or the unnormalised masked source. -/
inductive ShiftVf where
  | bit
  | raw
deriving DecidableEq, Repr

/-- `ADDI_VF` (R8, D9): whether ADD Vx, kk writes a carry to VF. -/
inductive AddiVf where
  | unchanged
  | carry
deriving DecidableEq, Repr

/-- `LOGIC_VF` (R8, D10): whether OR, AND and XOR clear VF. -/
inductive LogicVf where
  | unchanged
  | zero
deriving DecidableEq, Repr

/-- `BULK_I` (R8, D12): whether the bulk transfers advance I by x + 1. -/
inductive BulkI where
  | unchanged
  | increment
deriving DecidableEq, Repr

/-- The configuration points of R8, one field each. `font` holds the 16 glyphs of 5 bytes each (10_state.md R34).
`RNG` of R8 is `Config.randByte` below, a free value. -/
structure Config where
  subVf         : SubVf
  shiftSrc      : ShiftSrc
  shiftVf       : ShiftVf
  addiVf        : AddiVf
  logicVf       : LogicVf
  bulkInclusive : Bool
  bulkI         : BulkI
  font          : Vector (Vector Byte 5) 16
  skipRegStrict : Bool
  ips           : Nat
deriving DecidableEq, Repr

/-- FREE VALUE (log entry 1): the byte that the n-th execution of RND draws. The spec takes "an arbitrary byte 0..255 per
execution (a draw), with no law relating successive draws" (10_state.md R32, decision D20). It has no body, so a claim
about RND holds whatever is drawn. -/
opaque Config.randByte : Nat → Byte

end Sys2Proof
end

