-- ==== Sys2Proof/Machine/Params.lean ====
section
/-! DEFINITION. The decided value of every configuration point (00_scope.md R8), the fixed sizes and places of R7, and
the standard font (10_state.md R34). -/

namespace Sys2Proof.Machine

/-- `MEM_SIZE` (R7). -/
def memSize : Nat := 4096

/-- `PROGRAM_BASE` (R7): where LOAD puts an image and where the first fetch happens (70_reset_and_hazards.md R281). -/
def programBase : Nat := 0x200

/-- `FONT_BASE` (R7): the glyph table's first address. -/
def fontBase : Nat := 0x50

/-- The standard CHIP-8 font, one row per hexadecimal digit (10_state.md R34, decision D16). -/
def standardFont : Vector (Vector Byte 5) 16 := #v[
  #v[0xF0, 0x90, 0x90, 0x90, 0xF0],
  #v[0x20, 0x60, 0x20, 0x20, 0x70],
  #v[0xF0, 0x10, 0xF0, 0x80, 0xF0],
  #v[0xF0, 0x10, 0xF0, 0x10, 0xF0],
  #v[0x90, 0x90, 0xF0, 0x10, 0x10],
  #v[0xF0, 0x80, 0xF0, 0x10, 0xF0],
  #v[0xF0, 0x80, 0xF0, 0x90, 0xF0],
  #v[0xF0, 0x10, 0x20, 0x40, 0x40],
  #v[0xF0, 0x90, 0xF0, 0x90, 0xF0],
  #v[0xF0, 0x90, 0xF0, 0x10, 0xF0],
  #v[0xF0, 0x90, 0xF0, 0x90, 0x90],
  #v[0xE0, 0x90, 0xE0, 0x90, 0xE0],
  #v[0xF0, 0x80, 0x80, 0x80, 0xF0],
  #v[0xE0, 0x90, 0x90, 0x90, 0xE0],
  #v[0xF0, 0x80, 0xF0, 0x80, 0xF0],
  #v[0xF0, 0x80, 0xF0, 0x80, 0x80]]

/-- The hardware's configuration: the "decided value" column of R8 (92_eei_decisions.md D4, D6 to D10, D12, D16, D28;
90_conflicts.md C2). DESIGN CHOICE (log entry 7): `exec` and `step` are the machine at it, and Configured.lean has
the machine at any other. -/
def decidedConfig : Config where
  subVf         := .notBorrow
  shiftSrc      := .vx
  shiftVf       := .bit
  addiVf        := .unchanged
  logicVf       := .unchanged
  bulkInclusive := true
  bulkI         := .unchanged
  font          := standardFont
  skipRegStrict := true
  ips           := 700

end Sys2Proof.Machine
end

