-- ==== Sys2Proof/Syntax.lean ====
section
/-! DEFINITION. The 35 instructions of the base CHIP-8 set, one constructor per row of the decode table
(30_encoding.md R84), in table order. Register numbers and the sprite height are 4-bit fields, `kk` is the 8-bit
immediate, `nnn` the 12-bit address (R81, R83). -/

namespace Sys2Proof

/-- One constructor per row of spec/opcode_table.json. -/
inductive Instr where
  /-- CLS, `00E0` (44_display.md R170). -/
  | cls
  /-- RET, `00EE` (40_flow.md R101). -/
  | ret
  /-- SYS nnn, `0nnn` other than 00E0 and 00EE (40_flow.md R100). -/
  | sys (nnn : Addr12)
  /-- JP nnn, `1nnn` (40_flow.md R102). -/
  | jp (nnn : Addr12)
  /-- CALL nnn, `2nnn` (40_flow.md R103). -/
  | call (nnn : Addr12)
  /-- SE Vx, kk, `3xkk` (41_skip.md R121). -/
  | seImm (x : Reg) (kk : Byte)
  /-- SNE Vx, kk, `4xkk` (41_skip.md R122). -/
  | sneImm (x : Reg) (kk : Byte)
  /-- SE Vx, Vy, `5xy0` (41_skip.md R123). -/
  | seReg (x y : Reg)
  /-- LD Vx, kk, `6xkk` (42_alu.md R132). -/
  | ldImm (x : Reg) (kk : Byte)
  /-- ADD Vx, kk, `7xkk` (42_alu.md R133). -/
  | addImm (x : Reg) (kk : Byte)
  /-- LD Vx, Vy, `8xy0` (42_alu.md R134). -/
  | ldReg (x y : Reg)
  /-- OR Vx, Vy, `8xy1` (42_alu.md R135). -/
  | orReg (x y : Reg)
  /-- AND Vx, Vy, `8xy2` (42_alu.md R136). -/
  | andReg (x y : Reg)
  /-- XOR Vx, Vy, `8xy3` (42_alu.md R137). -/
  | xorReg (x y : Reg)
  /-- ADD Vx, Vy, `8xy4` (42_alu.md R138). -/
  | addReg (x y : Reg)
  /-- SUB Vx, Vy, `8xy5` (42_alu.md R139). -/
  | sub (x y : Reg)
  /-- SHR Vx, Vy, `8xy6`; y is encoded, and ignored under `SHIFT_SRC = VX` (42_alu.md R140). -/
  | shr (x y : Reg)
  /-- SUBN Vx, Vy, `8xy7` (42_alu.md R141). -/
  | subn (x y : Reg)
  /-- SHL Vx, Vy, `8xyE`; y is encoded, and ignored under `SHIFT_SRC = VX` (42_alu.md R142). -/
  | shl (x y : Reg)
  /-- SNE Vx, Vy, `9xy0` (41_skip.md R124). -/
  | sneReg (x y : Reg)
  /-- LD I, nnn, `Annn` (43_index_random.md R160). -/
  | ldI (nnn : Addr12)
  /-- JP V0, nnn, `Bnnn` (40_flow.md R104). -/
  | jpV0 (nnn : Addr12)
  /-- RND Vx, kk, `Cxkk` (43_index_random.md R162). -/
  | rnd (x : Reg) (kk : Byte)
  /-- DRW Vx, Vy, n, `Dxyn` (44_display.md R173). -/
  | drw (x y : Reg) (n : Height)
  /-- SKP Vx, `Ex9E` (45_input_timers.md R190). -/
  | skp (x : Reg)
  /-- SKNP Vx, `ExA1` (45_input_timers.md R191). -/
  | sknp (x : Reg)
  /-- LD Vx, DT, `Fx07` (45_input_timers.md R193). -/
  | ldVxDT (x : Reg)
  /-- LD Vx, K, `Fx0A` (45_input_timers.md R192). -/
  | ldVxK (x : Reg)
  /-- LD DT, Vx, `Fx15` (45_input_timers.md R194). -/
  | ldDTVx (x : Reg)
  /-- LD ST, Vx, `Fx18` (45_input_timers.md R195). -/
  | ldSTVx (x : Reg)
  /-- ADD I, Vx, `Fx1E` (43_index_random.md R161). -/
  | addI (x : Reg)
  /-- LD F, Vx, `Fx29` (46_memory_ops.md R210). -/
  | ldF (x : Reg)
  /-- LD B, Vx, `Fx33` (46_memory_ops.md R211). -/
  | ldB (x : Reg)
  /-- LD [I], Vx, `Fx55` (46_memory_ops.md R212). -/
  | storeRegs (x : Reg)
  /-- LD Vx, [I], `Fx65` (46_memory_ops.md R213). -/
  | loadRegs (x : Reg)
deriving DecidableEq, Repr

end Sys2Proof
end

