-- ==== Sys2Proof/WellFormed.lean ====
section
/-! DEFINITION. Which terms of `Instr` are instructions. The field types bound every operand; what is left to check is
that SYS is not written with an operand whose word is CLS or RET (30_encoding.md R87). -/

namespace Sys2Proof

/-- The SYS operands whose words 0x00E0 and 0x00EE decode to CLS and RET instead (30_encoding.md R87). -/
def sysOperandTaken (nnn : Addr12) : Bool := nnn == 0x0E0#12 || nnn == 0x0EE#12

/-- An instruction is well formed when some opcode decodes to it. "0x00E0 decodes to CLS, 0x00EE decodes to RET, and
every other 0nnn decodes to SYS" (30_encoding.md R87). -/
def Instr.wf : Instr → Bool
  | .sys nnn => !sysOperandTaken nnn
  | .cls | .ret | .jp _ | .call _ | .seImm _ _ | .sneImm _ _ | .seReg _ _ | .ldImm _ _ | .addImm _ _ | .ldReg _ _
  | .orReg _ _ | .andReg _ _ | .xorReg _ _ | .addReg _ _ | .sub _ _ | .shr _ _ | .subn _ _ | .shl _ _ | .sneReg _ _
  | .ldI _ | .jpV0 _ | .rnd _ _ | .drw _ _ _ | .skp _ | .sknp _ | .ldVxDT _ | .ldVxK _ | .ldDTVx _ | .ldSTVx _
  | .addI _ | .ldF _ | .ldB _ | .storeRegs _ | .loadRegs _ => true

end Sys2Proof
end

