-- ==== Sys2Proof/Decode.lean ====
section
/-! DEFINITION. Decoding (30_encoding.md R80 to R88): the ordered (mask, id) table, the first-match scan, the operand
fields; then the encoder, written from the formats of R82. Decoding is total and rejects an opcode by name. -/

namespace Sys2Proof

/-- The operation a table row names (R84), before its operand fields are read. -/
inductive Op where
  | cls | ret | sys | jp | call | seImm | sneImm | seReg | ldImm | addImm | ldReg | orReg | andReg | xorReg | addReg
  | sub | shr | subn | shl | sneReg | ldI | jpV0 | rnd | drw | skp | sknp | ldVxDT | ldVxK | ldDTVx | ldSTVx | addI
  | ldF | ldB | storeRegs | loadRegs
deriving DecidableEq, Repr

/-- One descriptor of the decode table: "a 16-bit identifying id, a 16-bit mask, and a handler" (R84). -/
structure Descriptor where
  op   : Op
  id   : Word
  mask : Word
deriving DecidableEq, Repr

/-- Why bytes do not decode: fewer than two bytes, or an opcode that no row of the table matches (R86). -/
inductive Reject where
  | tooShort
  | noRow (opcode : Word)
deriving DecidableEq, Repr

/-! ### The table -/

/-- An opcode matches a descriptor "when `opcode & mask == id`" (00_scope.md R15). -/
def Descriptor.fits (d : Descriptor) (w : Word) : Bool := (w &&& d.mask) == d.id

/-- The mask of the register-register skips: the low nibble is checked under `SKIP_REG_STRICT` (R88, D4). -/
def skipRegMask (cfg : Config) : Word := if cfg.skipRegStrict then 0xF00F else 0xF000

/-- Rows 1 to 20 of R84. -/
def tableUpper (cfg : Config) : List Descriptor :=
  [⟨.cls, 0x00E0, 0xFFFF⟩, ⟨.ret, 0x00EE, 0xFFFF⟩, ⟨.sys, 0x0000, 0xF000⟩, ⟨.jp, 0x1000, 0xF000⟩,
   ⟨.call, 0x2000, 0xF000⟩, ⟨.seImm, 0x3000, 0xF000⟩, ⟨.sneImm, 0x4000, 0xF000⟩, ⟨.seReg, 0x5000, skipRegMask cfg⟩,
   ⟨.ldImm, 0x6000, 0xF000⟩, ⟨.addImm, 0x7000, 0xF000⟩, ⟨.ldReg, 0x8000, 0xF00F⟩, ⟨.orReg, 0x8001, 0xF00F⟩,
   ⟨.andReg, 0x8002, 0xF00F⟩, ⟨.xorReg, 0x8003, 0xF00F⟩, ⟨.addReg, 0x8004, 0xF00F⟩, ⟨.sub, 0x8005, 0xF00F⟩,
   ⟨.shr, 0x8006, 0xF00F⟩, ⟨.subn, 0x8007, 0xF00F⟩, ⟨.shl, 0x800E, 0xF00F⟩, ⟨.sneReg, 0x9000, skipRegMask cfg⟩]

/-- Rows 21 to 35 of R84. -/
def tableLower : List Descriptor :=
  [⟨.ldI, 0xA000, 0xF000⟩, ⟨.jpV0, 0xB000, 0xF000⟩, ⟨.rnd, 0xC000, 0xF000⟩, ⟨.drw, 0xD000, 0xF000⟩,
   ⟨.skp, 0xE09E, 0xF0FF⟩, ⟨.sknp, 0xE0A1, 0xF0FF⟩, ⟨.ldVxDT, 0xF007, 0xF0FF⟩, ⟨.ldVxK, 0xF00A, 0xF0FF⟩,
   ⟨.ldDTVx, 0xF015, 0xF0FF⟩, ⟨.ldSTVx, 0xF018, 0xF0FF⟩, ⟨.addI, 0xF01E, 0xF0FF⟩, ⟨.ldF, 0xF029, 0xF0FF⟩,
   ⟨.ldB, 0xF033, 0xF0FF⟩, ⟨.storeRegs, 0xF055, 0xF0FF⟩, ⟨.loadRegs, 0xF065, 0xF0FF⟩]

/-- The ordered decode table of R84. It is a constant of the core, not state (10_state.md R21). -/
def decodeTable (cfg : Config) : List Descriptor := tableUpper cfg ++ tableLower

/-! ### The operand fields (R81) -/

/-- `x = op[11:8]`. -/
def fieldX (w : Word) : Reg := (w.extractLsb' 8 4).toFin

/-- `y = op[7:4]`. -/
def fieldY (w : Word) : Reg := (w.extractLsb' 4 4).toFin

/-- `n = op[3:0]`. -/
def fieldN (w : Word) : Height := (w.extractLsb' 0 4).toFin

/-- `kk = op[7:0]`. -/
def fieldKK (w : Word) : Byte := w.extractLsb' 0 8

/-- `nnn = op[11:0]`. -/
def fieldNNN (w : Word) : Addr12 := w.extractLsb' 0 12

/-- The operands are "taken from `op`" by the row's format (R82, R85). -/
def Op.instr (o : Op) (w : Word) : Instr :=
  match o with
  | .cls => .cls
  | .ret => .ret
  | .sys => .sys (fieldNNN w)
  | .jp => .jp (fieldNNN w)
  | .call => .call (fieldNNN w)
  | .seImm => .seImm (fieldX w) (fieldKK w)
  | .sneImm => .sneImm (fieldX w) (fieldKK w)
  | .seReg => .seReg (fieldX w) (fieldY w)
  | .ldImm => .ldImm (fieldX w) (fieldKK w)
  | .addImm => .addImm (fieldX w) (fieldKK w)
  | .ldReg => .ldReg (fieldX w) (fieldY w)
  | .orReg => .orReg (fieldX w) (fieldY w)
  | .andReg => .andReg (fieldX w) (fieldY w)
  | .xorReg => .xorReg (fieldX w) (fieldY w)
  | .addReg => .addReg (fieldX w) (fieldY w)
  | .sub => .sub (fieldX w) (fieldY w)
  | .shr => .shr (fieldX w) (fieldY w)
  | .subn => .subn (fieldX w) (fieldY w)
  | .shl => .shl (fieldX w) (fieldY w)
  | .sneReg => .sneReg (fieldX w) (fieldY w)
  | .ldI => .ldI (fieldNNN w)
  | .jpV0 => .jpV0 (fieldNNN w)
  | .rnd => .rnd (fieldX w) (fieldKK w)
  | .drw => .drw (fieldX w) (fieldY w) (fieldN w)
  | .skp => .skp (fieldX w)
  | .sknp => .sknp (fieldX w)
  | .ldVxDT => .ldVxDT (fieldX w)
  | .ldVxK => .ldVxK (fieldX w)
  | .ldDTVx => .ldDTVx (fieldX w)
  | .ldSTVx => .ldSTVx (fieldX w)
  | .addI => .addI (fieldX w)
  | .ldF => .ldF (fieldX w)
  | .ldB => .ldB (fieldX w)
  | .storeRegs => .storeRegs (fieldX w)
  | .loadRegs => .loadRegs (fieldX w)

/-- The operation of an instruction: which row of the table is its own (R84). -/
def Instr.op : Instr → Op
  | .cls => .cls
  | .ret => .ret
  | .sys _ => .sys
  | .jp _ => .jp
  | .call _ => .call
  | .seImm _ _ => .seImm
  | .sneImm _ _ => .sneImm
  | .seReg _ _ => .seReg
  | .ldImm _ _ => .ldImm
  | .addImm _ _ => .addImm
  | .ldReg _ _ => .ldReg
  | .orReg _ _ => .orReg
  | .andReg _ _ => .andReg
  | .xorReg _ _ => .xorReg
  | .addReg _ _ => .addReg
  | .sub _ _ => .sub
  | .shr _ _ => .shr
  | .subn _ _ => .subn
  | .shl _ _ => .shl
  | .sneReg _ _ => .sneReg
  | .ldI _ => .ldI
  | .jpV0 _ => .jpV0
  | .rnd _ _ => .rnd
  | .drw _ _ _ => .drw
  | .skp _ => .skp
  | .sknp _ => .sknp
  | .ldVxDT _ => .ldVxDT
  | .ldVxK _ => .ldVxK
  | .ldDTVx _ => .ldDTVx
  | .ldSTVx _ => .ldSTVx
  | .addI _ => .addI
  | .ldF _ => .ldF
  | .ldB _ => .ldB
  | .storeRegs _ => .storeRegs
  | .loadRegs _ => .loadRegs

/-! ### Decoding -/

/-- "Decode takes a 16-bit opcode and returns the **first** entry, in table order, for which
`(opcode & mask) == id`" (R85), for any configuration. -/
def decodeWith (cfg : Config) (w : Word) : Except Reject Instr :=
  match (decodeTable cfg).find? (fun d => d.fits w) with
  | some d => .ok (d.op.instr w)
  | none => .error (.noRow w)

/-- Decode under the decided configuration (R85, R88). -/
def decode (w : Word) : Except Reject Instr := decodeWith Machine.decidedConfig w

/-- The big-endian composition of a fetched word: `op <- b0 ++ b1`, b0 from the lower address (20_memory.md R55). -/
def opcodeOfBytes (b0 b1 : Byte) : Word := b0 ++ b1

/-- Decode the instruction at the head of a byte list, and give the bytes after it (R81: every instruction is exactly
two bytes). -/
def decodeBytes : List Byte → Except Reject (Instr × List Byte)
  | b0 :: b1 :: rest =>
    match decode (opcodeOfBytes b0 b1) with
    | .ok i => .ok (i, rest)
    | .error e => .error e
  | _ => .error .tooShort

/-! ### Encoding (R82) -/

/-- The 4 bits of a register number or a sprite height. -/
def nibble (x : Fin 16) : BitVec 4 := BitVec.ofFin x

/-- Format `F_ADDR`: `o n n n`. -/
def encAddr (o : BitVec 4) (nnn : Addr12) : Word := o ++ nnn

/-- Format `F_REG_IMM`: `o x k k`. -/
def encRegImm (o : BitVec 4) (x : Reg) (kk : Byte) : Word := (o ++ nibble x) ++ kk

/-- Formats `F_REG_REG` and `F_DRAW`: `o x y f`, the last nibble a function code or the height. -/
def encRegReg (o : BitVec 4) (x y : Reg) (f : BitVec 4) : Word := (o ++ nibble x) ++ (nibble y ++ f)

/-- Format `F_REG`: `o x f f`. -/
def encReg (o : BitVec 4) (x : Reg) (ff : Byte) : Word := (o ++ nibble x) ++ ff

/-- The opcode of an instruction (R82, R84). -/
def encode : Instr → Word
  | .cls => 0x00E0
  | .ret => 0x00EE
  | .sys nnn => encAddr 0x0 nnn
  | .jp nnn => encAddr 0x1 nnn
  | .call nnn => encAddr 0x2 nnn
  | .seImm x kk => encRegImm 0x3 x kk
  | .sneImm x kk => encRegImm 0x4 x kk
  | .seReg x y => encRegReg 0x5 x y 0x0
  | .ldImm x kk => encRegImm 0x6 x kk
  | .addImm x kk => encRegImm 0x7 x kk
  | .ldReg x y => encRegReg 0x8 x y 0x0
  | .orReg x y => encRegReg 0x8 x y 0x1
  | .andReg x y => encRegReg 0x8 x y 0x2
  | .xorReg x y => encRegReg 0x8 x y 0x3
  | .addReg x y => encRegReg 0x8 x y 0x4
  | .sub x y => encRegReg 0x8 x y 0x5
  | .shr x y => encRegReg 0x8 x y 0x6
  | .subn x y => encRegReg 0x8 x y 0x7
  | .shl x y => encRegReg 0x8 x y 0xE
  | .sneReg x y => encRegReg 0x9 x y 0x0
  | .ldI nnn => encAddr 0xA nnn
  | .jpV0 nnn => encAddr 0xB nnn
  | .rnd x kk => encRegImm 0xC x kk
  | .drw x y n => encRegReg 0xD x y (nibble n)
  | .skp x => encReg 0xE x 0x9E
  | .sknp x => encReg 0xE x 0xA1
  | .ldVxDT x => encReg 0xF x 0x07
  | .ldVxK x => encReg 0xF x 0x0A
  | .ldDTVx x => encReg 0xF x 0x15
  | .ldSTVx x => encReg 0xF x 0x18
  | .addI x => encReg 0xF x 0x1E
  | .ldF x => encReg 0xF x 0x29
  | .ldB x => encReg 0xF x 0x33
  | .storeRegs x => encReg 0xF x 0x55
  | .loadRegs x => encReg 0xF x 0x65

/-- The two bytes of a word as they lie in memory, the high byte at the lower address (20_memory.md R55). -/
def bytesOfOpcode (w : Word) : List Byte := [w.extractLsb' 8 8, w.extractLsb' 0 8]

/-- The two bytes of an instruction as memory holds them (20_memory.md R55). -/
def encodeBytes (i : Instr) : List Byte := bytesOfOpcode (encode i)

/-! ### The host's view of the decoder -/

/-- The opcode whose bits are `w` as spec/opcode_table.json numbers them: one 16-bit word, bit 0 its least significant
bit, and no bit at or above `nbits`. -/
def tableWord (nbits w : Nat) : Word := BitVec.ofNat 16 (w % 2 ^ nbits)

/-- The instruction the decoder reads from the table word `w`, laid out in bytes as memory stores it. -/
def decodeTableWord (nbits w : Nat) : Option Instr :=
  match decodeBytes (bytesOfOpcode (tableWord nbits w)) with
  | .ok (i, _) => some i
  | .error _ => none

end Sys2Proof
end

