-- ==== Sys2Proof/Machine/State.lean ====
section
/-! DEFINITION. The core's state, "the tuple below. Nothing else is architectural" (10_state.md R20), the reasons a step
can stop (60_exceptions.md R230), and the state after reset (10_state.md R39, 70_reset_and_hazards.md R280). -/

namespace Sys2Proof.Machine

/-- The seven error kinds of 60_exceptions.md R230. An error is the result of the RUN command that met it; the step that
raises it changes no state (R238). Each is raised exactly where the spec raises it, so each is SAFE: the model stops
where the core's RUN stops. -/
inductive Fault where
  /-- A memory range with addr + len > 4096. Raised by fetch, DRW, LD B, LD [I], LD Vx,[I] and the host's LOAD. -/
  | invalidAddress
  /-- No decode row matches the opcode. Raised by decode; it records pc and the opcode (R86). -/
  | invalidInstruction (pc : Word) (opcode : Word)
  /-- A register index above 15. No instruction raises it (10_state.md R23); the checked accessors `getV` and `setV` do. -/
  | invalidRegister
  /-- A key index above 15. Raised by SKP and SKNP. -/
  | invalidKey
  /-- A glyph digit above 15. Raised by LD F,Vx. -/
  | invalidDigit
  /-- CALL with 16 entries on the stack. -/
  | stackOverflow
  /-- RET with an empty stack. -/
  | stackUnderflow
deriving DecidableEq, Repr

/-- Reasons the MODEL gives an instruction no meaning. Every instruction of this core has its meaning, so no step
answers with one (SAFE; log entry 12). -/
inductive Refusal where
  /-- The arm of `exec` for an instruction not modelled yet. Raised by no arm of this model. -/
  | notModelled (mnemonic : String)
deriving DecidableEq, Repr

/-- Memory is the list of the bytes that differ from the reset contents, by strictly rising address (20_memory.md R50).
DESIGN CHOICE (log entry 2): safe, since every address reads as the spec says. -/
abbrev Memory := List Host.Cell

/-- The frame buffer: 64 x 32 one-bit pixels, pixel (x, y) at index `y*64 + x` (10_state.md R35). DESIGN
CHOICE (log entry 3): a pixel is a truth value, and FRAME gives it as a byte 0 or 1; safe. -/
abbrev FrameBuffer := Vector Bool 2048

/-- The state vector of 10_state.md R20, under the spec's own names. -/
structure State where
  /-- `V[0..15]`, the general registers (R22). -/
  V     : Vector Byte 16
  /-- The program counter (R26). -/
  pc    : Word
  /-- The index register (R27). -/
  I     : Word
  /-- `stack[0..15]`, the call stack's storage (R28, R30). -/
  stack : Vector Word 16
  /-- The call stack's depth, 0..16 (R28). -/
  sp    : Fin 17
  /-- `keys[0..15]`, true = down (R31). -/
  keys  : Vector Bool 16
  /-- The delay timer (R33). -/
  DT    : Byte
  /-- The sound timer (R33). -/
  ST    : Byte
  /-- `fb[0..2047]` (R35). -/
  fb    : FrameBuffer
  /-- The random source: how many bytes RND has drawn. It selects the next free value `Config.randByte` (R32).
  DESIGN CHOICE (log entry 1). -/
  rng   : Nat
  /-- `mem[0..4095]` (R36). -/
  mem   : Memory
deriving DecidableEq, Repr

/-- The state after reset and at power-on: `pc` = 0x200 and "all else zeroed" (R39), memory at its reset contents (R36).
`rng` is not reset by the core (R32); a run starts at draw 0 (DESIGN CHOICE, unsafe: log
entry 1). -/
def State.reset : State where
  V     := Vector.replicate 16 0
  pc    := 0x200
  I     := 0
  stack := Vector.replicate 16 0
  sp    := 0
  keys  := Vector.replicate 16 false
  DT    := 0
  ST    := 0
  fb    := Vector.replicate 2048 false
  rng   := 0
  mem   := []

end Sys2Proof.Machine
end

