-- ==== Sys2Proof/Machine/Ops.lean ====
section
/-! DEFINITION. The shared operations over the state: raising an error, writing each piece of state, advancing pc, the
bounds-checked memory primitives, the call stack, the key set, the frame buffer's accessors, and the fetch. -/

namespace Sys2Proof.Machine

/-- What a meaning answers. -/
abbrev Result := Host.Outcome State Fault Refusal

/-! ### Errors (60_exceptions.md) -/

/-- `raise E(info)`: the instruction ends with error E and "writes no state, including pc" (00_scope.md R13,
60_exceptions.md R238). The core has no trap entry: "On an error, the step makes no change (rule R238) and the RUN
command ends, returning the error to the host" (R240); `run` of HostInterface.lean is that command (log entry 4). -/
def raise (e : Fault) : Result := .fault e

/-- The numeric codes of R230, "labels only" (decision D21; log entry 12). -/
def Fault.code : Fault → Nat
  | .invalidAddress => 1
  | .invalidInstruction _ _ => 2
  | .invalidRegister => 3
  | .invalidKey => 4
  | .invalidDigit => 5
  | .stackOverflow => 6
  | .stackUnderflow => 7

/-! ### Writing one piece of state -/

/-- `V[x] <- b` (00_scope.md R11). -/
def State.setV (s : State) (x : Reg) (b : Byte) : State := { s with V := s.V.set x b }

/-- `set_vf(val)`: writes `V[15]` "and cannot fail" (10_state.md R25). -/
def State.setVF (s : State) (b : Byte) : State := s.setV VF b

/-- All sixteen general registers at once, for the bulk load. -/
def State.setRegs (s : State) (vs : Vector Byte 16) : State := { s with V := vs }

/-- `pc <- w`. -/
def State.setPc (s : State) (w : Word) : State := { s with pc := w }

/-- `I <- w`: "no explicit range clamp at set time" (10_state.md R27). -/
def State.setI (s : State) (w : Word) : State := { s with I := w }

/-- `DT <- b` (10_state.md R33). -/
def State.setDT (s : State) (b : Byte) : State := { s with DT := b }

/-- `ST <- b` (10_state.md R33). -/
def State.setST (s : State) (b : Byte) : State := { s with ST := b }

/-- `fb <- f`. -/
def State.setFb (s : State) (f : FrameBuffer) : State := { s with fb := f }

/-- `mem <- m`. -/
def State.setMem (s : State) (m : Memory) : State := { s with mem := m }

/-- `keys[k] <- b`: the host's KEY_DOWN and KEY_UP (60_exceptions.md R253). -/
def State.setKey (s : State) (k : Reg) (b : Bool) : State := { s with keys := s.keys.set k b }

/-- One byte drawn from the random source (10_state.md R32). -/
def State.drew (s : State) : State := { s with rng := s.rng + 1 }

/-! ### The program counter (10_state.md R26) -/

/-- `pc <- pc + 2`, "16-bit" arithmetic. -/
def State.advance (s : State) : State := s.setPc (s.pc + 2)

/-- `pc <- pc + 4` if the condition holds, else `pc <- pc + 2` (41_skip.md R120). -/
def State.skipIf (s : State) (c : Bool) : State := s.setPc (if c then s.pc + 4 else s.pc + 2)

/-! ### Checked register access (10_state.md R23) -/

/-- `get_v(i)`: "bounds-check `i<16`, else `Error::InvalidRegister`". -/
def getV (s : State) (i : Nat) : Except Fault Byte :=
  if h : i < 16 then .ok s.V[i] else .error .invalidRegister

/-- `set_v(i, val)`, bounds-checked as `getV`. -/
def setV (s : State) (i : Nat) (b : Byte) : Except Fault State :=
  if h : i < 16 then .ok (s.setV ⟨i, h⟩ b) else .error .invalidRegister

/-! ### Memory (20_memory.md) -/

/-- The reset contents of an address, "0 everywhere except the glyph table" (10_state.md R36), for any font (parameter
`FONT` of 00_scope.md R8). -/
def resetByte (cfg : Config) (a : Nat) : Byte :=
  if h : fontBase ≤ a ∧ a < fontBase + 80 then
    (cfg.font[(a - fontBase) / 5]'(by omega))[(a - fontBase) % 5]'(by omega)
  else 0

/-- What an address not listed reads as: the reset contents under the decided font (log entry 2). Under another font the
glyph bytes that differ are listed (`resetMemory` of Configured.lean). -/
def unlistedByte (a : Nat) : Byte := resetByte decidedConfig a

/-- The byte `mem[a]`. -/
def Memory.read : Memory → Nat → Byte
  | [], a => unlistedByte a
  | (k, b) :: rest, a => if a = k then b else Memory.read rest a

/-- An entry for address `a`, or none where the byte is what the unlisted address reads as. -/
def Memory.entry (a : Nat) (b : Byte) (rest : Memory) : Memory :=
  if b = unlistedByte a then rest else (a, b) :: rest

/-- `mem[a] <- b`, keeping the canonical form. -/
def Memory.write : Memory → Nat → Byte → Memory
  | [], a, b => Memory.entry a b []
  | (k, c) :: rest, a, b =>
    if a < k then Memory.entry a b ((k, c) :: rest)
    else if a = k then Memory.entry a b rest
    else (k, c) :: Memory.write rest a b

/-- `mem[a + k] <- bytes[k]` for every k. -/
def Memory.writeAll : Memory → Nat → List Byte → Memory
  | m, _, [] => m
  | m, a, b :: bs => Memory.writeAll (Memory.write m a b) (a + 1) bs

/-- The canonical form from address `lo` on: addresses strictly rising and below 4096, and no entry equal to what its
unlisted address reads as. -/
def Memory.wfFrom : Nat → Memory → Bool
  | _, [] => true
  | lo, (a, b) :: rest => decide (lo ≤ a) && decide (a < memSize) && (b != unlistedByte a) && Memory.wfFrom (a + 1) rest

/-- The canonical form of memory. Equal memories are equal lists in it. -/
def Memory.wf (m : Memory) : Bool := Memory.wfFrom 0 m

/-- `MemRead(addr, n)`: the n bytes at addr "when `addr + n <= 4096`. Otherwise it raises `InvalidAddress`"
(00_scope.md R12, 20_memory.md R52). The sum is a natural number, so it does not wrap. -/
def memRead (m : Memory) (addr n : Nat) : Except Fault (List Byte) :=
  if addr + n ≤ memSize then .ok ((List.range n).map fun k => m.read (addr + k)) else .error .invalidAddress

/-- `MemWrite(addr, n, bytes)`: the whole range is checked before any byte is written (R12, 20_memory.md R53). -/
def memWrite (m : Memory) (addr : Nat) (bytes : List Byte) : Except Fault Memory :=
  if addr + bytes.length ≤ memSize then .ok (m.writeAll addr bytes) else .error .invalidAddress

/-! ### The call stack (10_state.md R28, R29) -/

/-- `push(v)`: "if `sp = 16` then raise `StackOverflow`; else `stack[sp] <- v; sp <- sp + 1`" (R28). -/
def push (s : State) (v : Word) : Except Fault State :=
  if h : s.sp.val < 16 then
    .ok { s with stack := s.stack.set s.sp.val v, sp := ⟨s.sp.val + 1, by omega⟩ }
  else .error .stackOverflow

/-- `pop()`: "if `sp = 0` then raise `StackUnderflow`; else `sp <- sp - 1; return stack[sp]`" (R29). The popped
entry keeps its value, which no rule reads (DEDUCED: log entry 13). -/
def pop (s : State) : Except Fault (Word × State) :=
  if h : 0 < s.sp.val then
    .ok (s.stack[s.sp.val - 1], { s with sp := ⟨s.sp.val - 1, by omega⟩ })
  else .error .stackUnderflow

/-! ### The key set (10_state.md R31) -/

/-- `key_is_down(i)`: `keys[i]` when `i < 16`, else it raises `InvalidKey`. -/
def keyIsDown (s : State) (i : Byte) : Except Fault Bool :=
  if h : i.toNat < 16 then .ok s.keys[i.toNat] else .error .invalidKey

/-- `FirstKeyDown()`: the least k with `keys[k] = 1`, or none. -/
def firstKeyDown (s : State) : Option Reg := (List.finRange 16).find? fun k => s.keys[k]

/-! ### The frame buffer's accessors (10_state.md R35) -/

/-- `index = y*64 + x`. -/
def pixelIndex (x y : Nat) : Nat := y * 64 + x

/-- `get(x,y)`; it "fails" (none) when the index is 2048 or more (DESIGN CHOICE: log entry 9). -/
def getPixel (f : FrameBuffer) (x y : Nat) : Option Bool := f[pixelIndex x y]?

/-- `set(x,y,v)`; it "fails" (none) when the index is 2048 or more (log entry 9). -/
def setPixel (f : FrameBuffer) (x y : Nat) (v : Bool) : Option FrameBuffer :=
  if h : pixelIndex x y < 2048 then some (f.set (pixelIndex x y) v) else none

/-! ### Fetch (30_encoding.md R80) -/

/-- `[b0, b1] <- MemRead(pc, 2); op <- b0 ++ b1`, which "raises InvalidAddress if pc + 2 > 4096". -/
def fetch (s : State) : Except Fault Word :=
  if s.pc.toNat + 2 ≤ memSize then
    .ok (opcodeOfBytes (s.mem.read s.pc.toNat) (s.mem.read (s.pc.toNat + 1)))
  else .error .invalidAddress

end Sys2Proof.Machine
end

