-- ==== Sys2Proof/Machine/Operands.lean ====
section
/-! DEFINITION. The operand forms: zero extension of immediates (30_encoding.md R83), the shift source, the bulk
transfer's extent, the BCD digits, the glyph address and the sprite's origin. -/

namespace Sys2Proof.Machine

/-- `zext_16(nnn)`: a 12-bit address as a 16-bit one (30_encoding.md R83). -/
def zextAddr (nnn : Addr12) : Word := nnn.setWidth 16

/-- `zext_16(b)`: a register's byte as a 16-bit value (00_scope.md R10). -/
def zextByte (b : Byte) : Word := b.setWidth 16

/-- `s <- (SHIFT_SRC = VX) ? V[x] : V[y]` (42_alu.md R140, R142). -/
def shiftSource (c : ShiftSrc) (s : State) (x y : Reg) : Byte :=
  match c with
  | .vx => s.V[x]
  | .vy => s.V[y]

/-- How many registers a bulk transfer moves: V0..Vx, or V0..Vx-1 when `BULK_INCLUSIVE` is false (00_scope.md R8).
DEDUCED for the exclusive form, which this hardware does not have (log entry 11). -/
def bulkCount (cfg : Config) (x : Reg) : Nat := if cfg.bulkInclusive then x.val + 1 else x.val

/-- I after a bulk transfer: unchanged, or `I + x + 1` under `BULK_I = INCREMENT` (46_memory_ops.md R212, R213; log entry
11). -/
def bulkIndex (cfg : Config) (x : Reg) (i : Word) : Word :=
  match cfg.bulkI with
  | .unchanged => i
  | .increment => i + BitVec.ofNat 16 (x.val + 1)

/-- The first `n` general registers, V0 first. -/
def firstRegs (s : State) (n : Nat) : List Byte := s.V.toList.take n

/-- `for k: V[k] <- b[k]` over the bytes given; the registers above them keep their values (46_memory_ops.md R213). -/
def overwriteRegs (vs : Vector Byte 16) (bytes : List Byte) : Vector Byte 16 :=
  Vector.ofFn fun k => bytes.getD k.val vs[k]

/-- `[v div 100, (v div 10) mod 10, v mod 10]` (46_memory_ops.md R211). -/
def bcdDigits (v : Byte) : List Byte :=
  [BitVec.ofNat 8 (v.toNat / 100), BitVec.ofNat 8 (v.toNat / 10 % 10), BitVec.ofNat 8 (v.toNat % 10)]

/-- `0x50 + 5 * d`, the address of digit d's glyph (46_memory_ops.md R210). -/
def glyphAddress (d : Byte) : Word := BitVec.ofNat 16 (fontBase + 5 * d.toNat)

/-- `x0 <- V[x] mod 64` (44_display.md R172, R173). -/
def originX (s : State) (x : Reg) : Nat := s.V[x].toNat % 64

/-- `y0 <- V[y] mod 32` (44_display.md R172, R173). -/
def originY (s : State) (y : Reg) : Nat := s.V[y].toNat % 32

end Sys2Proof.Machine
end

