-- ==== Sys2Proof/Machine/Flags.lean ====
section
/-! DEFINITION. Every flag the spec computes into VF (10_state.md R24): carry, borrow, shifted-out bit, collision; and
the order in which a result and a flag are written (42_alu.md R130). -/

namespace Sys2Proof.Machine

/-- `c ? 1 : 0`. -/
def flagByte (c : Bool) : Byte := if c then 1 else 0

/-- `(a + b > 255) ? 1 : 0` (42_alu.md R131, R138). -/
def carryFlag (a b : Byte) : Byte := flagByte (decide (a.toNat + b.toNat > 255))

/-- The borrow flag under either polarity: `minuend >= subtrahend` for `NOT_BORROW`, `minuend < subtrahend` for
`BORROW` (42_alu.md R139, R141). -/
def borrowFlag (p : SubVf) (minuend subtrahend : Byte) : Byte :=
  match p with
  | .notBorrow => flagByte (decide (minuend.toNat ≥ subtrahend.toNat))
  | .borrow => flagByte (decide (minuend.toNat < subtrahend.toNat))

/-- `s AND 0x01`, "same under SHIFT_VF = BIT and RAW" (42_alu.md R140). -/
def shrFlag (b : Byte) : Byte := b &&& 0x01

/-- `(s >> 7) AND 1` under `BIT`, `s AND 0x80` under `RAW` (42_alu.md R142). -/
def shlFlag (p : ShiftVf) (b : Byte) : Byte :=
  match p with
  | .bit => (b >>> 7) &&& 1
  | .raw => b &&& 0x80

/-- The end of an instruction that writes a result and no flag: `V[x] <- r`, then `pc <- pc + 2`. -/
def finish (s : State) (x : Reg) (r : Byte) : Result := .next (s.setV x r).advance

/-- The end of an instruction that writes a result and a flag: the result first, the flag "as their last step, after
writing the result register", then pc (42_alu.md R130). -/
def finishWithFlag (s : State) (x : Reg) (r flag : Byte) : Result := .next ((s.setV x r).setVF flag).advance

end Sys2Proof.Machine
end

