-- ==== Sys2Proof/Machine/Alu.lean ====
section
/-! DEFINITION. Register load, arithmetic and logic (42_alu.md R130 to R142). An operation whose effect depends on a
configuration point of 00_scope.md R8 takes the configuration as an argument (`…With`); the instruction is that
operation at the decided configuration. Operands are read from the state before any write (R130). -/

namespace Sys2Proof.Machine

/-- LD Vx, kk (R132). -/
def execLdImm (x : Reg) (kk : Byte) (s : State) : Result := finish s x kk

/-- `V[x] <- (a + kk) mod 256`, and the carry into VF under `ADDI_VF = CARRY` (R133). -/
def addImmWith (cfg : Config) (x : Reg) (kk : Byte) (s : State) : Result :=
  match cfg.addiVf with
  | .unchanged => finish s x (s.V[x] + kk)
  | .carry => finishWithFlag s x (s.V[x] + kk) (carryFlag s.V[x] kk)

/-- ADD Vx, kk (R133): VF is not a flag here under the decided `ADDI_VF`. -/
def execAddImm (x : Reg) (kk : Byte) (s : State) : Result := addImmWith decidedConfig x kk s

/-- LD Vx, Vy (R134). -/
def execLdReg (x y : Reg) (s : State) : Result := finish s x s.V[y]

/-- The end of OR, AND and XOR: `if LOGIC_VF = ZERO then VF <- 0` (R135 to R137). -/
def finishLogic (cfg : Config) (s : State) (x : Reg) (r : Byte) : Result :=
  match cfg.logicVf with
  | .unchanged => finish s x r
  | .zero => finishWithFlag s x r 0

/-- `V[x] <- a OR b`, and VF by `LOGIC_VF` (R135). -/
def orWith (cfg : Config) (x y : Reg) (s : State) : Result := finishLogic cfg s x (s.V[x] ||| s.V[y])

/-- OR Vx, Vy (R135): no flag under the decided `LOGIC_VF`. -/
def execOr (x y : Reg) (s : State) : Result := orWith decidedConfig x y s

/-- `V[x] <- a AND b`, and VF by `LOGIC_VF` (R136). -/
def andWith (cfg : Config) (x y : Reg) (s : State) : Result := finishLogic cfg s x (s.V[x] &&& s.V[y])

/-- AND Vx, Vy (R136): no flag under the decided `LOGIC_VF`. -/
def execAnd (x y : Reg) (s : State) : Result := andWith decidedConfig x y s

/-- `V[x] <- a XOR b`, and VF by `LOGIC_VF` (R137). -/
def xorWith (cfg : Config) (x y : Reg) (s : State) : Result := finishLogic cfg s x (s.V[x] ^^^ s.V[y])

/-- XOR Vx, Vy (R137): no flag under the decided `LOGIC_VF`. -/
def execXor (x y : Reg) (s : State) : Result := xorWith decidedConfig x y s

/-- ADD Vx, Vy: VF = carry, written last (R138). -/
def execAddReg (x y : Reg) (s : State) : Result :=
  finishWithFlag s x (s.V[x] + s.V[y]) (carryFlag s.V[x] s.V[y])

/-- `V[x] <- (a - b) mod 256`, VF by the polarity `SUB_VF` (R139). -/
def subWith (cfg : Config) (x y : Reg) (s : State) : Result :=
  finishWithFlag s x (s.V[x] - s.V[y]) (borrowFlag cfg.subVf s.V[x] s.V[y])

/-- SUB Vx, Vy (R139). -/
def execSub (x y : Reg) (s : State) : Result := subWith decidedConfig x y s

/-- `V[x] <- (b - a) mod 256`, VF by the polarity `SUB_VF` (R141). -/
def subnWith (cfg : Config) (x y : Reg) (s : State) : Result :=
  finishWithFlag s x (s.V[y] - s.V[x]) (borrowFlag cfg.subVf s.V[y] s.V[x])

/-- SUBN Vx, Vy (R141). -/
def execSubn (x y : Reg) (s : State) : Result := subnWith decidedConfig x y s

/-- `V[x] <- s >> 1`, VF = the bit shifted out (R140). -/
def shrWith (cfg : Config) (x y : Reg) (s : State) : Result :=
  let b := shiftSource cfg.shiftSrc s x y
  finishWithFlag s x (b >>> 1) (shrFlag b)

/-- SHR Vx (R140): y is ignored under the decided `SHIFT_SRC`. -/
def execShr (x y : Reg) (s : State) : Result := shrWith decidedConfig x y s

/-- `V[x] <- (s << 1) mod 256`, VF by `SHIFT_VF` (R142). -/
def shlWith (cfg : Config) (x y : Reg) (s : State) : Result :=
  let b := shiftSource cfg.shiftSrc s x y
  finishWithFlag s x (b <<< 1) (shlFlag cfg.shiftVf b)

/-- SHL Vx (R142): y is ignored under the decided `SHIFT_SRC`. -/
def execShl (x y : Reg) (s : State) : Result := shlWith decidedConfig x y s

end Sys2Proof.Machine
end

