-- ==== Sys2Proof/Machine/Display.lean ====
section
/-! DEFINITION. The frame buffer, CLS and DRW (44_display.md R170 to R174). The drawing loop is the spec's: rows from
the top, columns from the left, one pixel at a time, each clipped on its own. -/

namespace Sys2Proof.Machine

/-- What the drawing loop carries: the frame buffer, and whether an on pixel has been turned off (R173). -/
structure Canvas where
  fb  : FrameBuffer
  hit : Bool
deriving DecidableEq, Repr

/-- CLS: `for j in 0..2047: fb[j] <- 0` (R170). -/
def execCls (s : State) : Result := .next (s.setFb (Vector.replicate 2048 false)).advance

/-- The pixel in column c of a sprite row is "Bit `7 - c`", so bit 7 is the leftmost (R171). -/
def spriteBit (row : Byte) (c : Nat) : Bool := row.getLsbD (7 - c)

/-- One pixel of the sprite at (px, py): skipped outside the grid (R172), else XORed into the frame buffer where the
sprite's bit is set, with the collision noted (R173). -/
def plot (px py : Nat) (on : Bool) (c : Canvas) : Canvas :=
  if h : px < 64 ∧ py < 32 then
    if on then
      have hj : pixelIndex px py < 2048 := by unfold pixelIndex; omega
      { fb := c.fb.set (pixelIndex px py) (!c.fb[pixelIndex px py]), hit := c.hit || c.fb[pixelIndex px py] }
    else c
  else c

/-- `for c in 0 .. 7` of one sprite row (R173). -/
def drawRow (x0 py : Nat) (row : Byte) (c : Canvas) : Canvas :=
  (List.range 8).foldl (fun acc col => plot (x0 + col) py (spriteBit row col) acc) c

/-- `for r in 0 .. n-1`, `py` being the first row's (R173). -/
def drawRows (x0 : Nat) : Nat → List Byte → Canvas → Canvas
  | _, [], c => c
  | py, row :: rows, c => drawRows x0 (py + 1) rows (drawRow x0 py row c)

/-- DRW Vx, Vy, n (R173). The coordinates are read before VF is written, and the sprite is read before VF or any pixel
is written, so a failing DRW changes nothing. -/
def execDrw (x y : Reg) (n : Height) (s : State) : Result :=
  match memRead s.mem s.I.toNat n.val with
  | .error e => raise e
  | .ok sprite =>
    let c := drawRows (originX s x) (originY s y) sprite ⟨s.fb, false⟩
    .next ((s.setVF (flagByte c.hit)).setFb c.fb).advance

end Sys2Proof.Machine
end

