-- ==== Sys2Proof/Machine/Flow.lean ====
section
/-! DEFINITION. Flow control: SYS, RET, JP, CALL, JP V0 (40_flow.md R100 to R105). -/

namespace Sys2Proof.Machine

/-- SYS nnn: it "does nothing but advance pc" (R100; the spec's decision D3, log entry 8). -/
def execSys (_nnn : Addr12) (s : State) : Result := .next s.advance

/-- RET: pop, then `pc <- (a + 2) mod 2^16` (R101). -/
def execRet (s : State) : Result :=
  match pop s with
  | .error e => raise e
  | .ok (a, t) => .next (t.setPc (a + 2))

/-- JP nnn: `pc <- zext_16(nnn)` (R102). -/
def execJp (nnn : Addr12) (s : State) : Result := .next (s.setPc (zextAddr nnn))

/-- CALL nnn: `push(pc)`, the address of this CALL, then `pc <- zext_16(nnn)` (R103). -/
def execCall (nnn : Addr12) (s : State) : Result :=
  match push s s.pc with
  | .error e => raise e
  | .ok t => .next (t.setPc (zextAddr nnn))

/-- JP V0, nnn: `pc <- zext_16(nnn) + zext_16(V[0])`, not truncated to 12 bits (R104). -/
def execJpV0 (nnn : Addr12) (s : State) : Result := .next (s.setPc (zextAddr nnn + zextByte s.V[0]))

end Sys2Proof.Machine
end

