-- ==== Sys2Proof/Machine/IndexRandom.lean ====
section
/-! DEFINITION. The index register and the random byte (43_index_random.md R160 to R162). -/

namespace Sys2Proof.Machine

/-- LD I, nnn: `I <- zext_16(nnn)` (R160). -/
def execLdI (nnn : Addr12) (s : State) : Result := .next (s.setI (zextAddr nnn)).advance

/-- ADD I, Vx: `I <- (I + zext_16(V[x])) mod 2^16`; VF is not written (R161). -/
def execAddI (x : Reg) (s : State) : Result := .next (s.setI (s.I + zextByte s.V[x])).advance

/-- RND for a given draw r: `V[x] <- r AND kk`. The draw is taken whatever kk is (R162). -/
def rndWith (r : Byte) (x : Reg) (kk : Byte) (s : State) : Result := finish s.drew x (r &&& kk)

/-- RND Vx, kk (R162): the draw is the next free value. -/
def execRnd (x : Reg) (kk : Byte) (s : State) : Result := rndWith (Config.randByte s.rng) x kk s

end Sys2Proof.Machine
end

