-- ==== Sys2Proof/Machine/InputTimers.lean ====
section
/-! DEFINITION. The key instructions and the timer transfers (45_input_timers.md R190 to R195). -/

namespace Sys2Proof.Machine

/-- SKP Vx: skip if the key is down; `InvalidKey` when V[x] > 15 (R190). -/
def execSkp (x : Reg) (s : State) : Result :=
  match keyIsDown s s.V[x] with
  | .error e => raise e
  | .ok down => .next (s.skipIf down)

/-- SKNP Vx: skip if the key is up; `InvalidKey` when V[x] > 15 (R191). -/
def execSknp (x : Reg) (s : State) : Result :=
  match keyIsDown s s.V[x] with
  | .error e => raise e
  | .ok down => .next (s.skipIf (!down))

/-- LD Vx, K: with no key down "no state changes; pc stays at this instruction", which is a completed step; else
`V[x] <- k` for the lowest key down, and pc advances (R192). -/
def execLdVxK (x : Reg) (s : State) : Result :=
  match firstKeyDown s with
  | none => .next s
  | some k => finish s x (BitVec.ofNat 8 k.val)

/-- LD Vx, DT (R193). -/
def execLdVxDT (x : Reg) (s : State) : Result := finish s x s.DT

/-- LD DT, Vx (R194). -/
def execLdDTVx (x : Reg) (s : State) : Result := .next (s.setDT s.V[x]).advance

/-- LD ST, Vx (R195). -/
def execLdSTVx (x : Reg) (s : State) : Result := .next (s.setST s.V[x]).advance

end Sys2Proof.Machine
end

