-- ==== Sys2Proof/Machine/MemoryOps.lean ====
section
/-! DEFINITION. The glyph address, BCD and the bulk register transfers (46_memory_ops.md R210 to R213). Each checks its
whole range before it moves any byte. -/

namespace Sys2Proof.Machine

/-- LD F, Vx: `I <- 0x50 + 5 * d`; `InvalidDigit` when V[x] > 15 (R210). -/
def execLdF (x : Reg) (s : State) : Result :=
  if s.V[x].toNat > 15 then raise .invalidDigit else .next (s.setI (glyphAddress s.V[x])).advance

/-- LD B, Vx: hundreds, tens and ones to I, I+1, I+2 (R211). -/
def execLdB (x : Reg) (s : State) : Result :=
  match memWrite s.mem s.I.toNat (bcdDigits s.V[x]) with
  | .error e => raise e
  | .ok m => .next (s.setMem m).advance

/-- The store of V0..Vx at I, under any configuration of inclusivity and I (R212). -/
def storeRegsWith (cfg : Config) (x : Reg) (s : State) : Result :=
  match memWrite s.mem s.I.toNat (firstRegs s (bulkCount cfg x)) with
  | .error e => raise e
  | .ok m => .next ((s.setMem m).setI (bulkIndex cfg x s.I)).advance

/-- LD [I], Vx (R212). -/
def execStoreRegs (x : Reg) (s : State) : Result := storeRegsWith decidedConfig x s

/-- The load of V0..Vx from I, under any configuration of inclusivity and I (R213). -/
def loadRegsWith (cfg : Config) (x : Reg) (s : State) : Result :=
  match memRead s.mem s.I.toNat (bulkCount cfg x) with
  | .error e => raise e
  | .ok bytes => .next ((s.setRegs (overwriteRegs s.V bytes)).setI (bulkIndex cfg x s.I)).advance

/-- LD Vx, [I] (R213). -/
def execLoadRegs (x : Reg) (s : State) : Result := loadRegsWith decidedConfig x s

end Sys2Proof.Machine
end

