-- ==== Sys2Proof/Machine/Skip.lean ====
section
/-! DEFINITION. The conditional skips on registers and literals (41_skip.md R120 to R124). The skipped word is not
examined, and no skip of this file raises an error. -/

namespace Sys2Proof.Machine

/-- SE Vx, kk (R121). -/
def execSeImm (x : Reg) (kk : Byte) (s : State) : Result := .next (s.skipIf (s.V[x] == kk))

/-- SNE Vx, kk (R122). -/
def execSneImm (x : Reg) (kk : Byte) (s : State) : Result := .next (s.skipIf (s.V[x] != kk))

/-- SE Vx, Vy (R123). -/
def execSeReg (x y : Reg) (s : State) : Result := .next (s.skipIf (s.V[x] == s.V[y]))

/-- SNE Vx, Vy (R124). -/
def execSneReg (x y : Reg) (s : State) : Result := .next (s.skipIf (s.V[x] != s.V[y]))

end Sys2Proof.Machine
end

