-- ==== Sys2Proof/Machine/Step.lean ====
section
/-! DEFINITION. One step: fetch, decode, execute (30_encoding.md R80); and the placing of one instruction where the next
step fetches. -/

namespace Sys2Proof.Machine

/-- "One step executes one instruction" (R80). The fetch may raise `InvalidAddress`, decode `InvalidInstruction(pc, op)`,
and the handler its own error (60_exceptions.md R233); nothing but the handler writes pc. -/
def step (s : State) : Host.Outcome State Fault Refusal :=
  match fetch s with
  | .error e => raise e
  | .ok op =>
    match decode op with
    | .error _ => raise (.invalidInstruction s.pc op)
    | .ok i => exec i s

/-- `s` with the table word `w` stored, high byte first, where `step` fetches its next instruction: at pc, or, where two
bytes do not fit at pc, at the program base with pc there (DESIGN CHOICE: log entry 5). -/
def State.withFetchWord (s : State) (nbits w : Nat) : State :=
  let bytes := bytesOfOpcode (tableWord nbits w)
  if s.pc.toNat + 2 ≤ memSize then s.setMem (s.mem.writeAll s.pc.toNat bytes)
  else (s.setMem (s.mem.writeAll programBase bytes)).setPc (BitVec.ofNat 16 programBase)

end Sys2Proof.Machine
end

