-- ==== Sys2Proof/Machine/HostInterface.lean ====
section
/-! DEFINITION. The commands by which the host drives the core (60_exceptions.md R245 to R258, 70_reset_and_hazards.md
R280 to R284). Each is atomic and happens between RUN commands, never inside a step (R258), so each is a function of the
state (DESIGN CHOICE: log entry 6). -/

namespace Sys2Proof.Machine

/-- The host's commands (R250). A key index is a 4-bit value, so one out of range cannot be written (R253). -/
inductive Command where
  | run (n : Nat)
  | load (bytes : List Byte)
  | keyDown (k : Reg)
  | keyUp (k : Reg)
  | reset
  | frame
  | readState
  | timerTick
deriving DecidableEq, Repr

/-- What a command returns to the host (R250). -/
inductive Reply where
  /-- `Ok`. -/
  | ok
  /-- `Err(e)`. -/
  | err (e : Fault)
  /-- A command with no result. -/
  | none
  /-- FRAME's 2048 bytes, each 0 or 1 (R255). -/
  | pixels (bytes : Vector Byte 2048)
  /-- READ_STATE's copy of the state (R256). -/
  | copy (s : State)
  /-- The model gave an instruction no meaning; no instruction of this model does so (log entry 12). -/
  | refused (r : Refusal)
deriving DecidableEq, Repr

/-- `RUN(N)`: up to N steps; an error ends the run, "steps 1..i-1 keep their effects" (R235, R251), and the failing step
changes nothing (R238). -/
def run : Nat → State → State × Reply
  | 0, s => (s, .ok)
  | n + 1, s =>
    match step s with
    | .next t => run n t
    | .fault e => (s, .err e)
    | .refused r => (s, .refused r)

/-- The registers and the frame buffer at their reset values, with the memory and the random source given
(70_reset_and_hazards.md R280, R283). -/
def freshRegisters (m : Memory) (rng : Nat) : State := { State.reset with mem := m, rng := rng }

/-- `LOAD(bytes)`: the image at 0x200, then registers and frame buffer reset; bytes outside the image keep their values;
an oversized image changes nothing (70_reset_and_hazards.md R283). -/
def load (bytes : List Byte) (s : State) : State × Reply :=
  match memWrite s.mem programBase bytes with
  | .error e => (s, .err e)
  | .ok m => (freshRegisters m s.rng, .ok)

/-- `RESET()`: every piece of state to its reset value but `rng`, which "is not touched" (70_reset_and_hazards.md R280). -/
def resetCommand (s : State) : State := freshRegisters [] s.rng

/-- One timer's countdown: `if DT > 0 then DT <- DT - 1` (R245). -/
def countDown (b : Byte) : Byte := if b.toNat > 0 then b - 1 else b

/-- `TIMER_TICK()`: each non-zero timer down by one, both together (R245). -/
def timerTick (s : State) : State := (s.setDT (countDown s.DT)).setST (countDown s.ST)

/-- A pixel as FRAME's byte, 0 or 1 (10_state.md R35). -/
def pixelByte (p : Bool) : Byte := if p then 1 else 0

/-- `FRAME()`: a copy of `fb[0..2047]`, one byte per pixel (R255). -/
def frameBytes (s : State) : Vector Byte 2048 := s.fb.map pixelByte

/-- A command's effect and its result, from any state (R250, R261). -/
def command (c : Command) (s : State) : State × Reply :=
  match c with
  | .run n => run n s
  | .load bytes => load bytes s
  | .keyDown k => (s.setKey k true, .none)
  | .keyUp k => (s.setKey k false, .none)
  | .reset => (resetCommand s, .none)
  | .frame => (s, .pixels (frameBytes s))
  | .readState => (s, .copy s)
  | .timerTick => (timerTick s, .none)

/-- A session of the host: commands "one at a time, in one total order" (R258), each with its reply. -/
def session : List Command → State → State × List Reply
  | [], s => (s, [])
  | c :: cs, s =>
    let (t, r) := command c s
    let (u, rs) := session cs t
    (u, r :: rs)

/-- The reference host's budget for an elapsed time of `num / den` seconds: `floor(IPS * elapsed_seconds)` (R262,
informative; it belongs to the host). -/
def tickBudget (cfg : Config) (num den : Nat) : Nat := cfg.ips * num / den

end Sys2Proof.Machine
end

