-- ==== Sys2Proof/Machine/Configured.lean ====
section
/-! DEFINITION. The machine at any value of the configuration points: "The model takes each as an argument"
(00_scope.md R8). `cfg` holds every point but `RNG`, whose argument is `draws`, the byte of each draw. `exec`, `step`,
`run` and `command` are this machine at the decided values (log entry 7). -/

namespace Sys2Proof.Machine

/-- The meaning of an instruction at any configuration (R8). The last arm is the instructions whose rules name no
configuration point. -/
def execWith (cfg : Config) (draws : Nat → Byte) (i : Instr) (s : State) : Result :=
  match i with
  | .addImm x kk => addImmWith cfg x kk s
  | .orReg x y => orWith cfg x y s
  | .andReg x y => andWith cfg x y s
  | .xorReg x y => xorWith cfg x y s
  | .sub x y => subWith cfg x y s
  | .shr x y => shrWith cfg x y s
  | .subn x y => subnWith cfg x y s
  | .shl x y => shlWith cfg x y s
  | .rnd x kk => rndWith (draws s.rng) x kk s
  | .storeRegs x => storeRegsWith cfg x s
  | .loadRegs x => loadRegsWith cfg x s
  | .cls | .ret | .sys _ | .jp _ | .call _ | .seImm _ _ | .sneImm _ _ | .seReg _ _ | .ldImm _ _ | .ldReg _ _
  | .addReg _ _ | .sneReg _ _ | .ldI _ | .jpV0 _ | .drw _ _ _ | .skp _ | .sknp _ | .ldVxDT _ | .ldVxK _ | .ldDTVx _
  | .ldSTVx _ | .addI _ | .ldF _ | .ldB _ => exec i s

/-- One step at any configuration (30_encoding.md R80; `SKIP_REG_STRICT` is in the decode table). -/
def stepWith (cfg : Config) (draws : Nat → Byte) (s : State) : Result :=
  match fetch s with
  | .error e => raise e
  | .ok op =>
    match decodeWith cfg op with
    | .error _ => raise (.invalidInstruction s.pc op)
    | .ok i => execWith cfg draws i s

/-- `RUN(N)` at any configuration (60_exceptions.md R251). -/
def runWith (cfg : Config) (draws : Nat → Byte) : Nat → State → State × Reply
  | 0, s => (s, .ok)
  | n + 1, s =>
    match stepWith cfg draws s with
    | .next t => runWith cfg draws n t
    | .fault e => (s, .err e)
    | .refused r => (s, .refused r)

/-- The memory that RESET leaves at any `FONT`: zero, "and then the glyph table" (70_reset_and_hazards.md R280), in the
canonical form, which lists the glyph bytes that differ from the decided font's. -/
def resetMemory (cfg : Config) : Memory :=
  Memory.writeAll [] fontBase ((List.range 80).map fun k => resetByte cfg (fontBase + k))

/-- The state after reset at any configuration. -/
def resetWith (cfg : Config) : State := freshRegisters (resetMemory cfg) 0

/-- A command at any configuration: RUN and RESET are the two that depend on it. -/
def commandWith (cfg : Config) (draws : Nat → Byte) (c : Command) (s : State) : State × Reply :=
  match c with
  | .run n => runWith cfg draws n s
  | .reset => (freshRegisters (resetMemory cfg) s.rng, .none)
  | .load _ | .keyDown _ | .keyUp _ | .frame | .readState | .timerTick => command c s

end Sys2Proof.Machine
end

