-- ==== Sys2Proof/Safety.lean ====
section
/-! DEFINITION. The terms claims are stated in: the pieces of state and what "unchanged" means for each, which pieces an
instruction may write, when an instruction raises which error, the invariant of the machine, and the states a host can
reach. They are read from the spec's own tables, not from the meanings. -/

namespace Sys2Proof.Machine

/-- The pieces of state of 10_state.md R20. -/
inductive Part where
  | V | pc | I | stack | sp | keys | DT | ST | fb | rng | mem
deriving DecidableEq, Repr

/-- Two states agree on a piece of state. Memory agrees when every address reads the same byte. -/
def Part.same : Part → State → State → Prop
  | .V, s, t => t.V = s.V
  | .pc, s, t => t.pc = s.pc
  | .I, s, t => t.I = s.I
  | .stack, s, t => t.stack = s.stack
  | .sp, s, t => t.sp = s.sp
  | .keys, s, t => t.keys = s.keys
  | .DT, s, t => t.DT = s.DT
  | .ST, s, t => t.ST = s.ST
  | .fb, s, t => t.fb = s.fb
  | .rng, s, t => t.rng = s.rng
  | .mem, s, t => ∀ a : Nat, t.mem.read a = s.mem.read a

/-- `t` agrees with `s` on every piece of state but those listed: the frame of an instruction. -/
def Unchanged (but : List Part) (s t : State) : Prop := ∀ p : Part, p ∉ but → p.same s t

/-- The pieces of state each instruction writes, from the writers that 10_state.md R24, R26, R27, R30 to R33 and R35 and
20_memory.md R51 list. -/
def writes : Instr → List Part
  | .cls => [.fb, .pc]
  | .ret => [.sp, .pc]
  | .sys _ | .jp _ | .jpV0 _ | .seImm _ _ | .sneImm _ _ | .seReg _ _ | .sneReg _ _ | .skp _ | .sknp _ => [.pc]
  | .call _ => [.stack, .sp, .pc]
  | .ldImm _ _ | .addImm _ _ | .ldReg _ _ | .orReg _ _ | .andReg _ _ | .xorReg _ _ | .addReg _ _ | .sub _ _
  | .shr _ _ | .subn _ _ | .shl _ _ | .ldVxDT _ | .ldVxK _ | .loadRegs _ => [.V, .pc]
  | .ldI _ | .addI _ | .ldF _ => [.I, .pc]
  | .rnd _ _ => [.V, .rng, .pc]
  | .drw _ _ _ => [.V, .fb, .pc]
  | .ldDTVx _ => [.DT, .pc]
  | .ldSTVx _ => [.ST, .pc]
  | .ldB _ | .storeRegs _ => [.mem, .pc]

/-- The error an instruction raises in a state, from the table of 60_exceptions.md R230 and the list of R233; none where
the instruction completes. -/
def errorOf : Instr → State → Option Fault
  | .ret, s => if s.sp.val = 0 then some .stackUnderflow else none
  | .call _, s => if s.sp.val = 16 then some .stackOverflow else none
  | .skp x, s | .sknp x, s => if 15 < s.V[x].toNat then some .invalidKey else none
  | .ldF x, s => if 15 < s.V[x].toNat then some .invalidDigit else none
  | .drw _ _ n, s => if 4096 < s.I.toNat + n.val then some .invalidAddress else none
  | .ldB _, s => if 4096 < s.I.toNat + 3 then some .invalidAddress else none
  | .storeRegs x, s | .loadRegs x, s => if 4096 < s.I.toNat + x.val + 1 then some .invalidAddress else none
  | .cls, _ | .sys _, _ | .jp _, _ | .seImm _ _, _ | .sneImm _ _, _ | .seReg _ _, _ | .ldImm _ _, _ | .addImm _ _, _
  | .ldReg _ _, _ | .orReg _ _, _ | .andReg _ _, _ | .xorReg _ _, _ | .addReg _ _, _ | .sub _ _, _ | .shr _ _, _
  | .subn _ _, _ | .shl _ _, _ | .sneReg _ _, _ | .ldI _, _ | .jpV0 _, _ | .rnd _ _, _ | .ldVxDT _, _ | .ldVxK _, _
  | .ldDTVx _, _ | .ldSTVx _, _ | .addI _, _ => none

/-- The general register an instruction names as the destination of its result, where it names one (42_alu.md R130,
43_index_random.md R162, 45_input_timers.md R192, R193). -/
def destination : Instr → Option Reg
  | .ldImm x _ | .addImm x _ | .ldReg x _ | .orReg x _ | .andReg x _ | .xorReg x _ | .addReg x _ | .sub x _
  | .shr x _ | .subn x _ | .shl x _ | .rnd x _ | .ldVxDT x | .ldVxK x => some x
  | .cls | .ret | .sys _ | .jp _ | .call _ | .seImm _ _ | .sneImm _ _ | .seReg _ _ | .sneReg _ _ | .ldI _ | .jpV0 _
  | .drw _ _ _ | .skp _ | .sknp _ | .ldDTVx _ | .ldSTVx _ | .addI _ | .ldF _ | .ldB _ | .storeRegs _ | .loadRegs _ =>
    none

/-- "Six instructions write VF as a flag" (10_state.md R24). -/
def writesFlag : Instr → Bool
  | .addReg _ _ | .sub _ _ | .shr _ _ | .subn _ _ | .shl _ _ | .drw _ _ _ => true
  | .cls | .ret | .sys _ | .jp _ | .call _ | .seImm _ _ | .sneImm _ _ | .seReg _ _ | .ldImm _ _ | .addImm _ _
  | .ldReg _ _ | .orReg _ _ | .andReg _ _ | .xorReg _ _ | .sneReg _ _ | .ldI _ | .jpV0 _ | .rnd _ _ | .skp _ | .sknp _
  | .ldVxDT _ | .ldVxK _ | .ldDTVx _ | .ldSTVx _ | .addI _ | .ldF _ | .ldB _ | .storeRegs _ | .loadRegs _ => false

/-- The instructions whose rule names a configuration point of 00_scope.md R8 (42_alu.md R133, R135 to R137, R139 to R142;
43_index_random.md R162; 46_memory_ops.md R212, R213). -/
def namesConfigurationPoint : Instr → Bool
  | .addImm _ _ | .orReg _ _ | .andReg _ _ | .xorReg _ _ | .sub _ _ | .shr _ _ | .subn _ _ | .shl _ _ | .rnd _ _
  | .storeRegs _ | .loadRegs _ => true
  | .cls | .ret | .sys _ | .jp _ | .call _ | .seImm _ _ | .sneImm _ _ | .seReg _ _ | .ldImm _ _ | .ldReg _ _
  | .addReg _ _ | .sneReg _ _ | .ldI _ | .jpV0 _ | .drw _ _ _ | .skp _ | .sknp _ | .ldVxDT _ | .ldVxK _ | .ldDTVx _
  | .ldSTVx _ | .addI _ | .ldF _ | .ldB _ => false

/-- The instruction's opcode is the number `w`, and that opcode decodes to it. -/
def HasOpcode (i : Instr) (w : Nat) : Prop := (encode i).toNat = w ∧ decode (encode i) = .ok i

/-- The opcode of the two bytes at pc: `op = b0 * 256 + b1` (20_memory.md R55). -/
def OpcodeAtPc (s : State) (op : Word) : Prop :=
  op.toNat = (s.mem.read s.pc.toNat).toNat * 256 + (s.mem.read (s.pc.toNat + 1)).toNat

/-- `t` is at the next instruction: `pc <- pc + 2` in 16 bits (10_state.md R26). -/
def Advanced (s t : State) : Prop := t.pc.toNat = (s.pc.toNat + 2) % 65536

/-- The illegal opcodes of 30_encoding.md R88, space by space. -/
def IllegalOpcode (op : Nat) : Prop :=
  (op / 4096 = 0x5 ∧ op % 16 ≠ 0) ∨
  (op / 4096 = 0x8 ∧ op % 16 ∈ [0x8, 0x9, 0xA, 0xB, 0xC, 0xD, 0xF]) ∨
  (op / 4096 = 0x9 ∧ op % 16 ≠ 0) ∨
  (op / 4096 = 0xE ∧ op % 256 ∉ [0x9E, 0xA1]) ∨
  (op / 4096 = 0xF ∧ op % 256 ∉ [0x07, 0x0A, 0x15, 0x18, 0x1E, 0x29, 0x33, 0x55, 0x65])

/-- The invariant of the machine: memory is in its canonical form, every return address on the call stack is the address
of a CALL that executed (40_flow.md R101: "at most 0xFFE"), and pc is within what a step can write to it
(70_reset_and_hazards.md R296). -/
structure State.Inv (s : State) : Prop where
  memCanonical    : s.mem.wf = true
  returnAddresses : ∀ k : Fin 16, k.val < s.sp.val → s.stack[k].toNat ≤ 0xFFE
  pcRange         : s.pc.toNat ≤ 0x10FE

/-- "The largest value a step writes to pc", by instruction (70_reset_and_hazards.md R296). -/
def pcBound : Instr → Nat
  | .seImm _ _ | .sneImm _ _ | .seReg _ _ | .sneReg _ _ | .skp _ | .sknp _ => 0x1002
  | .jp _ | .call _ => 0xFFF
  | .jpV0 _ => 0x10FE
  | .cls | .ret | .sys _ | .ldImm _ _ | .addImm _ _ | .ldReg _ _ | .orReg _ _ | .andReg _ _ | .xorReg _ _
  | .addReg _ _ | .sub _ _ | .shr _ _ | .subn _ _ | .shl _ _ | .ldI _ | .rnd _ _ | .drw _ _ _ | .ldVxDT _ | .ldVxK _
  | .ldDTVx _ | .ldSTVx _ | .addI _ | .ldF _ | .ldB _ | .storeRegs _ | .loadRegs _ => 0x1000

/-- The states a host can bring the core to: power-on (with any number of bytes already drawn from the host's random
source), and then any command in any order (60_exceptions.md R258, R261). -/
inductive Reachable : State → Prop where
  | powerOn (rng : Nat) : Reachable (freshRegisters [] rng)
  | after (c : Command) (s : State) (h : Reachable s) : Reachable (command c s).1

/-- A run of n steps in which no step raises an error. -/
def RunsClean (n : Nat) (s : State) : Prop := (run n s).2 = .ok

/-- Pixel j of the frame buffer lies under a set bit of the sprite (44_display.md R171, R172): row `y` of the sprite is
the byte at `I + y`, its bit `7 - c` the pixel in column c, the origin (x0, y0) wrapped and the pixels clipped. -/
def Covered (m : Memory) (i x0 y0 n : Nat) (j : Nat) : Prop :=
  x0 ≤ j % 64 ∧ j % 64 < x0 + 8 ∧ y0 ≤ j / 64 ∧ j / 64 < y0 + n ∧
    (m.read (i + (j / 64 - y0))).getLsbD (7 - (j % 64 - x0)) = true

end Sys2Proof.Machine
end

