-- ==== Sys2Proof/Certificates/Slice0/Obligations.lean ====
section
/-! DEFINITION. The statements for the provers. They speak in numbers (`toNat`), in single bytes of memory (`Memory.read`)
and in single registers and pixels, so that each says what the spec's pseudocode says and not what a definition says. -/

open Sys2Proof Sys2Proof.Machine

/-! ### Encoding, decode and the step -/

/-- Words written out from the encodings of R84, one or more per family, decode to their instructions. -/
def Obligations.DecodeReadsWrittenWords : Prop :=
  decode 0x00E0 = .ok .cls ∧ decode 0x00EE = .ok .ret ∧ decode 0x0234 = .ok (.sys 0x234) ∧
  decode 0x2ABC = .ok (.call 0xABC) ∧ decode 0xB300 = .ok (.jpV0 0x300) ∧ decode 0x3A42 = .ok (.seImm 10 0x42) ∧
  decode 0x9120 = .ok (.sneReg 1 2) ∧ decode 0x8125 = .ok (.sub 1 2) ∧ decode 0x812E = .ok (.shl 1 2) ∧
  decode 0xC30F = .ok (.rnd 3 0x0F) ∧ decode 0xF21E = .ok (.addI 2) ∧ decode 0xD125 = .ok (.drw 1 2 5) ∧
  decode 0xE1A1 = .ok (.sknp 1) ∧ decode 0xF30A = .ok (.ldVxK 3) ∧ decode 0xF255 = .ok (.storeRegs 2) ∧
  decode 0x800F = .error (.noRow 0x800F)

/-- Decode and encode agree: every well-formed instruction, with every operand, is read back from its word and from its
two bytes in memory's order. -/
def Obligations.DecodeOfEncodeIsTheInstruction : Prop :=
  ∀ i : Instr, i.wf = true →
    decode (encode i) = .ok i ∧ ∀ rest : List Byte, decodeBytes (encodeBytes i ++ rest) = .ok (i, rest)

/-- The other direction: an opcode that decodes is the encoding of what it decodes to, and that is well formed. -/
def Obligations.EncodeOfDecodeIsTheOpcode : Prop :=
  ∀ (w : Word) (i : Instr), decode w = .ok i → i.wf = true ∧ encode i = w

/-- R85: the first row in table order that matches gives the instruction; when none matches, the step raises
`InvalidInstruction(pc, op)`. -/
def Obligations.DecodeIsTheFirstMatchingRow : Prop :=
  (∀ (w : Word) (i : Instr), decode w = .ok i ↔
    ∃ (k : Nat) (d : Descriptor), (decodeTable decidedConfig)[k]? = some d ∧ w &&& d.mask = d.id ∧
      (∀ (j : Nat) (e : Descriptor), j < k → (decodeTable decidedConfig)[j]? = some e → w &&& e.mask ≠ e.id) ∧
      i = d.op.instr w) ∧
  (∀ (s : State) (op : Word), s.pc.toNat + 2 ≤ 4096 → OpcodeAtPc s op →
    (∀ d ∈ decodeTable decidedConfig, op &&& d.mask ≠ d.id) → step s = .fault (.invalidInstruction s.pc op))

/-- Two different rows match one opcode only where SYS shadows CLS or RET, so only there does the order matter (R87,
which the spec marks as derived from its table). -/
def Obligations.OnlySysOverlapsClsAndRet : Prop :=
  (∀ (w : Word) (d e : Descriptor), d ∈ decodeTable decidedConfig → e ∈ decodeTable decidedConfig → d ≠ e →
    w &&& d.mask = d.id → w &&& e.mask = e.id →
    (w = 0x00E0 ∧ ((d.op = .cls ∧ e.op = .sys) ∨ (d.op = .sys ∧ e.op = .cls))) ∨
    (w = 0x00EE ∧ ((d.op = .ret ∧ e.op = .sys) ∨ (d.op = .sys ∧ e.op = .ret)))) ∧
  (∀ w : Word, w.toNat < 0x1000 →
    decode w = .ok (if w = 0x00E0 then .cls else if w = 0x00EE then .ret else .sys (fieldNNN w)))

/-- The opcodes that do not decode are exactly those of the spec's list, and each raises `InvalidInstruction(pc, op)` when
fetched (R88, which the spec marks as derived from its table). -/
def Obligations.IllegalOpcodesAreTheListedSpaces : Prop :=
  (∀ op : Word, (∃ i, decode op = .ok i) ↔ ¬ IllegalOpcode op.toNat) ∧
  (∀ (s : State) (op : Word), s.pc.toNat ≤ 0xFFE → OpcodeAtPc s op → IllegalOpcode op.toNat →
    step s = .fault (.invalidInstruction s.pc op))

/-- R80: one step reads two bytes at pc (or raises `InvalidAddress`), composes them big-endian, decodes them (or raises
`InvalidInstruction`), and is `exec` of the instruction decoded; a step that raises an error leaves RUN at the state it
met. -/
def Obligations.StepRunsTheDecodedInstruction : Prop :=
  (∀ (s : State) (op : Word) (i : Instr), s.pc.toNat + 2 ≤ 4096 → OpcodeAtPc s op → decode op = .ok i →
    step s = exec i s) ∧
  (∀ s : State, 4096 < s.pc.toNat + 2 → step s = .fault .invalidAddress) ∧
  (∀ (s : State) (op : Word) (r : Reject), s.pc.toNat + 2 ≤ 4096 → OpcodeAtPc s op → decode op = .error r →
    step s = .fault (.invalidInstruction s.pc op)) ∧
  (∀ (s : State) (e : Fault) (n : Nat), step s = .fault e → run (n + 1) s = (s, .err e))

/-! ### Whole-machine rules -/

/-- An instruction raises an error exactly when the spec's list says so, and that error (the "raised by" column of R230
and the list of R233). -/
def Obligations.ExecRaisesExactlyTheListedErrors : Prop :=
  ∀ (i : Instr) (s : State) (e : Fault), exec i s = .fault e ↔ errorOf i s = some e

/-- Every instruction completes in every state in which the spec names no error for it. -/
def Obligations.ExecCompletesWhereNoErrorIsListed : Prop :=
  ∀ (i : Instr) (s : State), errorOf i s = none → ∃ t, exec i s = .next t

/-- The checks of a step in their order, and no other error: the fetch, then decode, then the one error of the instruction
(R233, which the spec marks as derived from R80 and the instruction rules). -/
def Obligations.StepErrorsComeInOrder : Prop :=
  ∀ (s : State) (op : Word) (e : Fault), OpcodeAtPc s op →
    (step s = .fault e ↔
      (0xFFF ≤ s.pc.toNat ∧ e = .invalidAddress) ∨
      (s.pc.toNat ≤ 0xFFE ∧ IllegalOpcode op.toNat ∧ e = .invalidInstruction s.pc op) ∨
      (s.pc.toNat ≤ 0xFFE ∧ ∃ i, decode op = .ok i ∧ errorOf i s = some e))

/-- The checked register accesses raise `InvalidRegister` beyond 15, and no step of the core raises it (R23: "So no
instruction of the core can raise `InvalidRegister`", which the spec marks as derived). -/
def Obligations.InvalidRegisterIsNeverRaisedByAStep : Prop :=
  (∀ (s : State) (i : Nat) (b : Byte), 15 < i →
    getV s i = .error .invalidRegister ∧ setV s i b = .error .invalidRegister) ∧
  (∀ (s : State) (x : Reg) (b : Byte), getV s x.val = .ok s.V[x] ∧
    ∃ t, setV s x.val b = .ok t ∧ (∀ j : Reg, t.V[j] = if j = x then b else s.V[j]) ∧ Unchanged [.V] s t) ∧
  (∀ s : State, step s ≠ .fault .invalidRegister)

/-- Every instruction writes only the pieces of state the spec lists it as a writer of; every other piece is as before,
and so is every byte of memory unless the instruction is LD B or LD [I] (whose own statements say which bytes they
store). For RET the list is the model's in one point: that `stack` keeps the popped entry too is DEDUCED (log entry 13;
the spec's U19 calls a dead entry any value). -/
def Obligations.InstructionsWriteOnlyTheirParts : Prop :=
  ∀ (i : Instr) (s t : State), exec i s = .next t → Unchanged (writes i) s t

/-- A general register changes only as the destination of the instruction, as VF written as a flag by one of the six flag
writers, or as one of V0..Vx of the bulk load (R24, whose list of writers the spec marks as derived). -/
def Obligations.RegistersChangeOnlyAsDestinationOrFlag : Prop :=
  ∀ (i : Instr) (s t : State) (j : Reg), exec i s = .next t → t.V[j] ≠ s.V[j] →
    destination i = some j ∨ (writesFlag i = true ∧ j = VF) ∨ ∃ x : Reg, i = .loadRegs x ∧ j ≤ x

/-- Nothing a RUN does changes the key set (R31: "Only the host writes it"). -/
def Obligations.RunKeepsTheKeySet : Prop := ∀ (n : Nat) (s : State), (run n s).1.keys = s.keys

/-! ### Flow control -/

/-- SYS does nothing but advance pc, and every 0nnn but 00E0 and 00EE is its opcode (R100; that SYS is a no-op is the
spec's own decision D3, log entry 8). -/
def Obligations.SysOnlyAdvances : Prop :=
  (∀ (nnn : Addr12) (s : State), ∃ t, exec (.sys nnn) s = .next t ∧ Advanced s t ∧ Unchanged [.pc] s t) ∧
  (∀ nnn : Addr12, nnn.toNat ≠ 0x0E0 → nnn.toNat ≠ 0x0EE → HasOpcode (.sys nnn) nnn.toNat)

/-- R102 and R104: JP sets pc to the target; JP V0 sets it to nnn + V0, not truncated to 12 bits, whatever the x nibble of
the opcode holds. Neither changes anything else. -/
def Obligations.JumpsSetOnlyPc : Prop :=
  ∀ (nnn : Addr12) (s : State),
    (HasOpcode (.jp nnn) (0x1000 + nnn.toNat) ∧
      ∃ t, exec (.jp nnn) s = .next t ∧ t.pc.toNat = nnn.toNat ∧ Unchanged [.pc] s t) ∧
    (HasOpcode (.jpV0 nnn) (0xB000 + nnn.toNat) ∧
      ∃ t, exec (.jpV0 nnn) s = .next t ∧ t.pc.toNat = nnn.toNat + (s.V[(0 : Reg)]).toNat ∧ Unchanged [.pc] s t)

/-- R103: CALL pushes its own address and jumps; with 16 entries on the stack it raises `StackOverflow`. -/
def Obligations.CallPushesItsAddress : Prop :=
  ∀ (nnn : Addr12) (s : State), HasOpcode (.call nnn) (0x2000 + nnn.toNat) ∧
    (s.sp.val = 16 → exec (.call nnn) s = .fault .stackOverflow) ∧
    (s.sp.val < 16 → ∃ t, exec (.call nnn) s = .next t ∧ t.sp.val = s.sp.val + 1 ∧ t.pc.toNat = nnn.toNat ∧
      (∀ k : Fin 16, t.stack[k] = if k.val = s.sp.val then s.pc else s.stack[k]) ∧
      Unchanged [.stack, .sp, .pc] s t)

/-- RET pops, and sets pc to the popped value plus 2; with an empty stack it raises `StackUnderflow` (R101). That the
popped entry of `stack` keeps its value is the model's, DEDUCED (log entry 13; the spec's U19 calls it any value). -/
def Obligations.ReturnGoesPastTheCall : Prop :=
  HasOpcode .ret 0x00EE ∧
  ∀ s : State, (s.sp.val = 0 → exec .ret s = .fault .stackUnderflow) ∧
    (∀ k : Fin 16, s.sp.val = k.val + 1 → ∃ t, exec .ret s = .next t ∧ t.sp.val = k.val ∧
      t.pc.toNat = ((s.stack[k]).toNat + 2) % 65536 ∧ Unchanged [.sp, .pc] s t)

/-- A RET that meets the stack a CALL left resumes just after that CALL, at the depth the CALL had. -/
def Obligations.ReturnResumesAfterItsCall : Prop :=
  ∀ (nnn : Addr12) (s t u : State), exec (.call nnn) s = .next t → u.sp = t.sp → u.stack = t.stack →
    ∃ w, exec .ret u = .next w ∧ Advanced s w ∧ w.sp = s.sp

/-- push and pop on the 16-deep stack (R28 and R29). That pop leaves the popped entry's value in `stack`, as the pseudocode
of R29 does, is the model's, DEDUCED (log entry 13; the spec's U19 calls it any value). -/
def Obligations.PushAndPopAreLastInFirstOut : Prop :=
  (∀ (s : State) (v : Word), s.sp.val = 16 → push s v = .error .stackOverflow) ∧
  (∀ (s : State) (v : Word), s.sp.val < 16 → ∃ t, push s v = .ok t ∧ t.sp.val = s.sp.val + 1 ∧
    (∀ k : Fin 16, t.stack[k] = if k.val = s.sp.val then v else s.stack[k]) ∧ Unchanged [.stack, .sp] s t ∧
    ∃ u, pop t = .ok (v, u) ∧ u.sp = s.sp) ∧
  (∀ s : State, s.sp.val = 0 → pop s = .error .stackUnderflow) ∧
  (∀ (s : State) (k : Fin 16), s.sp.val = k.val + 1 →
    ∃ u, pop s = .ok (s.stack[k], u) ∧ u.sp.val = k.val ∧ Unchanged [.sp] s u)

/-! ### Skips -/

/-- R121 to R124: the skips compare, and set pc to pc + 4 or pc + 2 and nothing else; 5xyn and 9xyn with n not 0 are
illegal. -/
def Obligations.SkipsCompareAndMovePc : Prop :=
  (∀ (x : Reg) (kk : Byte) (s : State), HasOpcode (.seImm x kk) (0x3000 + x.val * 256 + kk.toNat) ∧
    ∃ t, exec (.seImm x kk) s = .next t ∧ Unchanged [.pc] s t ∧
      t.pc.toNat = (s.pc.toNat + if s.V[x] = kk then 4 else 2) % 65536) ∧
  (∀ (x : Reg) (kk : Byte) (s : State), HasOpcode (.sneImm x kk) (0x4000 + x.val * 256 + kk.toNat) ∧
    ∃ t, exec (.sneImm x kk) s = .next t ∧ Unchanged [.pc] s t ∧
      t.pc.toNat = (s.pc.toNat + if s.V[x] ≠ kk then 4 else 2) % 65536) ∧
  (∀ (x y : Reg) (s : State), HasOpcode (.seReg x y) (0x5000 + x.val * 256 + y.val * 16) ∧
    ∃ t, exec (.seReg x y) s = .next t ∧ Unchanged [.pc] s t ∧
      t.pc.toNat = (s.pc.toNat + if s.V[x] = s.V[y] then 4 else 2) % 65536) ∧
  (∀ (x y : Reg) (s : State), HasOpcode (.sneReg x y) (0x9000 + x.val * 256 + y.val * 16) ∧
    ∃ t, exec (.sneReg x y) s = .next t ∧ Unchanged [.pc] s t ∧
      t.pc.toNat = (s.pc.toNat + if s.V[x] ≠ s.V[y] then 4 else 2) % 65536) ∧
  (∀ w : Word, w.toNat / 4096 = 5 ∨ w.toNat / 4096 = 9 → w.toNat % 16 ≠ 0 → decode w = .error (.noRow w))

/-! ### Register load, arithmetic and logic -/

/-- R132 and R134: the loads write their register and nothing else. -/
def Obligations.LoadsWriteTheirRegister : Prop :=
  (∀ (x : Reg) (kk : Byte) (s : State), HasOpcode (.ldImm x kk) (0x6000 + x.val * 256 + kk.toNat) ∧
    ∃ t, exec (.ldImm x kk) s = .next t ∧ (∀ j : Reg, t.V[j] = if j = x then kk else s.V[j]) ∧
      Advanced s t ∧ Unchanged [.V, .pc] s t) ∧
  (∀ (x y : Reg) (s : State), HasOpcode (.ldReg x y) (0x8000 + x.val * 256 + y.val * 16) ∧
    ∃ t, exec (.ldReg x y) s = .next t ∧ (∀ j : Reg, t.V[j] = if j = x then s.V[y] else s.V[j]) ∧
      Advanced s t ∧ Unchanged [.V, .pc] s t)

/-- R133: ADD Vx, kk wraps at 256 and writes no flag under the decided `ADDI_VF`; under `CARRY` the carry is written to VF
after the sum. -/
def Obligations.AddLiteralWrapsAndWritesNoFlag : Prop :=
  ∀ (x : Reg) (kk : Byte) (s : State), HasOpcode (.addImm x kk) (0x7000 + x.val * 256 + kk.toNat) ∧
    (∃ t, exec (.addImm x kk) s = .next t ∧
      (∀ j : Reg, (t.V[j]).toNat = if j = x then ((s.V[x]).toNat + kk.toNat) % 256 else (s.V[j]).toNat) ∧
      Advanced s t ∧ Unchanged [.V, .pc] s t) ∧
    (∀ cfg : Config, cfg.addiVf = .carry → ∃ t, addImmWith cfg x kk s = .next t ∧
      (∀ j : Reg, (t.V[j]).toNat =
        if j = VF then (if 255 < (s.V[x]).toNat + kk.toNat then 1 else 0)
        else if j = x then ((s.V[x]).toNat + kk.toNat) % 256 else (s.V[j]).toNat) ∧
      Advanced s t ∧ Unchanged [.V, .pc] s t)

/-- R135, R136, R137: OR, AND and XOR bit by bit, and no flag under the decided `LOGIC_VF`; under `ZERO`, VF is
0, written after the result. -/
def Obligations.LogicIsBitwiseAndWritesNoFlag : Prop :=
  ∀ (x y : Reg) (s : State),
    (HasOpcode (.orReg x y) (0x8001 + x.val * 256 + y.val * 16) ∧ ∃ t, exec (.orReg x y) s = .next t ∧
      (∀ b : Nat, b < 8 → (t.V[x]).getLsbD b = ((s.V[x]).getLsbD b || (s.V[y]).getLsbD b)) ∧
      (∀ j : Reg, j ≠ x → t.V[j] = s.V[j]) ∧ Advanced s t ∧ Unchanged [.V, .pc] s t) ∧
    (HasOpcode (.andReg x y) (0x8002 + x.val * 256 + y.val * 16) ∧ ∃ t, exec (.andReg x y) s = .next t ∧
      (∀ b : Nat, b < 8 → (t.V[x]).getLsbD b = ((s.V[x]).getLsbD b && (s.V[y]).getLsbD b)) ∧
      (∀ j : Reg, j ≠ x → t.V[j] = s.V[j]) ∧ Advanced s t ∧ Unchanged [.V, .pc] s t) ∧
    (HasOpcode (.xorReg x y) (0x8003 + x.val * 256 + y.val * 16) ∧ ∃ t, exec (.xorReg x y) s = .next t ∧
      (∀ b : Nat, b < 8 → (t.V[x]).getLsbD b = ((s.V[x]).getLsbD b ^^ (s.V[y]).getLsbD b)) ∧
      (∀ j : Reg, j ≠ x → t.V[j] = s.V[j]) ∧ Advanced s t ∧ Unchanged [.V, .pc] s t) ∧
    (∀ cfg : Config, cfg.logicVf = .zero →
      (∃ t, orWith cfg x y s = .next t ∧
        (∀ j : Reg, t.V[j] = if j = VF then 0 else if j = x then s.V[x] ||| s.V[y] else s.V[j]) ∧
        Advanced s t ∧ Unchanged [.V, .pc] s t) ∧
      (∃ t, andWith cfg x y s = .next t ∧
        (∀ j : Reg, t.V[j] = if j = VF then 0 else if j = x then s.V[x] &&& s.V[y] else s.V[j]) ∧
        Advanced s t ∧ Unchanged [.V, .pc] s t) ∧
      (∃ t, xorWith cfg x y s = .next t ∧
        (∀ j : Reg, t.V[j] = if j = VF then 0 else if j = x then s.V[x] ^^^ s.V[y] else s.V[j]) ∧
        Advanced s t ∧ Unchanged [.V, .pc] s t))

/-- R138 with R130: the sum in Vx, the carry in VF, the carry last. -/
def Obligations.AddRegistersSetsCarryLast : Prop :=
  ∀ (x y : Reg) (s : State), HasOpcode (.addReg x y) (0x8004 + x.val * 256 + y.val * 16) ∧
    ∃ t, exec (.addReg x y) s = .next t ∧
      (∀ j : Reg, (t.V[j]).toNat =
        if j = VF then (if 255 < (s.V[x]).toNat + (s.V[y]).toNat then 1 else 0)
        else if j = x then ((s.V[x]).toNat + (s.V[y]).toNat) % 256 else (s.V[j]).toNat) ∧
      Advanced s t ∧ Unchanged [.V, .pc] s t

/-- R139: Vx - Vy mod 256, VF = 1 iff no borrow under the decided polarity, written last; under `BORROW`, VF = 1 iff
borrow. -/
def Obligations.SubtractSetsNotBorrowLast : Prop :=
  ∀ (x y : Reg) (s : State), HasOpcode (.sub x y) (0x8005 + x.val * 256 + y.val * 16) ∧
    (∃ t, exec (.sub x y) s = .next t ∧
      (∀ j : Reg, (t.V[j]).toNat =
        if j = VF then (if (s.V[y]).toNat ≤ (s.V[x]).toNat then 1 else 0)
        else if j = x then ((s.V[x]).toNat + 256 - (s.V[y]).toNat) % 256 else (s.V[j]).toNat) ∧
      Advanced s t ∧ Unchanged [.V, .pc] s t) ∧
    (∀ cfg : Config, cfg.subVf = .borrow → ∃ t, subWith cfg x y s = .next t ∧
      (∀ j : Reg, (t.V[j]).toNat =
        if j = VF then (if (s.V[x]).toNat < (s.V[y]).toNat then 1 else 0)
        else if j = x then ((s.V[x]).toNat + 256 - (s.V[y]).toNat) % 256 else (s.V[j]).toNat) ∧
      Advanced s t ∧ Unchanged [.V, .pc] s t)

/-- R141: Vy - Vx mod 256, with the polarity of R139. -/
def Obligations.ReverseSubtractSetsNotBorrowLast : Prop :=
  ∀ (x y : Reg) (s : State), HasOpcode (.subn x y) (0x8007 + x.val * 256 + y.val * 16) ∧
    (∃ t, exec (.subn x y) s = .next t ∧
      (∀ j : Reg, (t.V[j]).toNat =
        if j = VF then (if (s.V[x]).toNat ≤ (s.V[y]).toNat then 1 else 0)
        else if j = x then ((s.V[y]).toNat + 256 - (s.V[x]).toNat) % 256 else (s.V[j]).toNat) ∧
      Advanced s t ∧ Unchanged [.V, .pc] s t) ∧
    (∀ cfg : Config, cfg.subVf = .borrow → ∃ t, subnWith cfg x y s = .next t ∧
      (∀ j : Reg, (t.V[j]).toNat =
        if j = VF then (if (s.V[y]).toNat < (s.V[x]).toNat then 1 else 0)
        else if j = x then ((s.V[y]).toNat + 256 - (s.V[x]).toNat) % 256 else (s.V[j]).toNat) ∧
      Advanced s t ∧ Unchanged [.V, .pc] s t)

/-- R140: Vx shifted right by one, VF = the old bit 0, written last; y is ignored; under `SHIFT_SRC = VY` the source is
Vy, and under either `SHIFT_VF` the flag is the same. -/
def Obligations.ShiftRightSetsTheBitShiftedOut : Prop :=
  ∀ (x y : Reg) (s : State), HasOpcode (.shr x y) (0x8006 + x.val * 256 + y.val * 16) ∧
    (∃ t, exec (.shr x y) s = .next t ∧
      (∀ j : Reg, (t.V[j]).toNat =
        if j = VF then (s.V[x]).toNat % 2 else if j = x then (s.V[x]).toNat / 2 else (s.V[j]).toNat) ∧
      Advanced s t ∧ Unchanged [.V, .pc] s t) ∧
    (∀ cfg : Config, ∃ t, shrWith cfg x y s = .next t ∧
      (∀ j : Reg, (t.V[j]).toNat =
        let src := if cfg.shiftSrc = .vx then (s.V[x]).toNat else (s.V[y]).toNat
        if j = VF then src % 2 else if j = x then src / 2 else (s.V[j]).toNat) ∧
      Advanced s t ∧ Unchanged [.V, .pc] s t)

/-- R142: Vx shifted left by one, VF = the old bit 7 as 0 or 1, written last; under `SHIFT_SRC = VY` the source is Vy, and
under `SHIFT_VF = RAW` the flag is 0 or 0x80. -/
def Obligations.ShiftLeftSetsTheBitShiftedOut : Prop :=
  ∀ (x y : Reg) (s : State), HasOpcode (.shl x y) (0x800E + x.val * 256 + y.val * 16) ∧
    (∃ t, exec (.shl x y) s = .next t ∧
      (∀ j : Reg, (t.V[j]).toNat =
        if j = VF then (s.V[x]).toNat / 128 else if j = x then (s.V[x]).toNat * 2 % 256 else (s.V[j]).toNat) ∧
      Advanced s t ∧ Unchanged [.V, .pc] s t) ∧
    (∀ cfg : Config, ∃ t, shlWith cfg x y s = .next t ∧
      (∀ j : Reg, (t.V[j]).toNat =
        let src := if cfg.shiftSrc = .vx then (s.V[x]).toNat else (s.V[y]).toNat
        if j = VF then (if cfg.shiftVf = .bit then src / 128 else src / 128 * 128)
        else if j = x then src * 2 % 256 else (s.V[j]).toNat) ∧
      Advanced s t ∧ Unchanged [.V, .pc] s t)

/-! ### The index register and the random byte -/

/-- R160 and R161: I is loaded from the literal, and added to in 16 bits with no flag and no range check. -/
def Obligations.IndexLoadsAndAddsIn16Bits : Prop :=
  (∀ (nnn : Addr12) (s : State), HasOpcode (.ldI nnn) (0xA000 + nnn.toNat) ∧
    ∃ t, exec (.ldI nnn) s = .next t ∧ t.I.toNat = nnn.toNat ∧ Advanced s t ∧ Unchanged [.I, .pc] s t) ∧
  (∀ (x : Reg) (s : State), HasOpcode (.addI x) (0xF01E + x.val * 256) ∧
    ∃ t, exec (.addI x) s = .next t ∧ t.I.toNat = (s.I.toNat + (s.V[x]).toNat) % 65536 ∧
      Advanced s t ∧ Unchanged [.I, .pc] s t)

/-- R162, for EVERY draw: the byte drawn is masked with kk, no bit outside kk is set, and nothing else but pc and the
draw counter changes. That the draw is `Config.randByte` at a counter in the state is the model's choice (log entry 1). -/
def Obligations.RandomByteIsMaskedForEveryDraw : Prop :=
  ∀ (x : Reg) (kk : Byte) (s : State), HasOpcode (.rnd x kk) (0xC000 + x.val * 256 + kk.toNat) ∧
    (∃ t, exec (.rnd x kk) s = .next t ∧ t.V[x] = Config.randByte s.rng &&& kk ∧
      (∀ b : Nat, kk.getLsbD b = false → (t.V[x]).getLsbD b = false) ∧
      (∀ j : Reg, j ≠ x → t.V[j] = s.V[j]) ∧ t.rng = s.rng + 1 ∧ Advanced s t ∧ Unchanged [.V, .rng, .pc] s t) ∧
    (∀ r : Byte, ∃ t, rndWith r x kk s = .next t ∧
      (∀ b : Nat, b < 8 → (t.V[x]).getLsbD b = (r.getLsbD b && kk.getLsbD b)) ∧
      (∀ j : Reg, j ≠ x → t.V[j] = s.V[j]) ∧ t.rng = s.rng + 1 ∧ Advanced s t ∧ Unchanged [.V, .rng, .pc] s t)

/-- I changes only through ADD I, LD I and LD F, and only ADD I can take it past 0xFFF (R297, which the spec marks as
derived). -/
def Obligations.OnlyAddIndexPassesTwelveBits : Prop :=
  ∀ (i : Instr) (s t : State), exec i s = .next t → t.I ≠ s.I →
    (∃ x : Reg, i = .addI x) ∨ (∃ nnn : Addr12, i = .ldI nnn ∧ t.I.toNat ≤ 0xFFF) ∨
    (∃ x : Reg, i = .ldF x ∧ t.I.toNat ≤ 0x9B)

/-! ### Display -/

/-- R170: CLS zeroes all 2048 pixels and writes nothing else but pc. -/
def Obligations.ClearScreenZeroesEveryPixel : Prop :=
  HasOpcode .cls 0x00E0 ∧
  ∀ s : State, ∃ t, exec .cls s = .next t ∧ (∀ j : Fin 2048, t.fb[j] = false) ∧ Advanced s t ∧ Unchanged [.fb, .pc] s t

/-- R173 with R171 and R172: DRW inverts exactly the pixels under a set bit of the sprite, origin wrapped and pixels
clipped; VF is 1 iff one of them was on; the coordinates are the old registers', so VF may be one; I + n beyond memory
raises `InvalidAddress`. -/
def Obligations.DrawInvertsExactlyTheCoveredPixels : Prop :=
  ∀ (x y : Reg) (n : Height) (s : State),
    HasOpcode (.drw x y n) (0xD000 + x.val * 256 + y.val * 16 + n.val) ∧
    (4096 < s.I.toNat + n.val → exec (.drw x y n) s = .fault .invalidAddress) ∧
    (s.I.toNat + n.val ≤ 4096 → ∃ t, exec (.drw x y n) s = .next t ∧
      (∀ j : Fin 2048, (t.fb[j] = s.fb[j]) ↔
        ¬ Covered s.mem s.I.toNat ((s.V[x]).toNat % 64) ((s.V[y]).toNat % 32) n.val j.val) ∧
      ((t.V[VF] = 1 ∧ ∃ j : Fin 2048, s.fb[j] = true ∧
          Covered s.mem s.I.toNat ((s.V[x]).toNat % 64) ((s.V[y]).toNat % 32) n.val j.val) ∨
       (t.V[VF] = 0 ∧ ¬ ∃ j : Fin 2048, s.fb[j] = true ∧
          Covered s.mem s.I.toNat ((s.V[x]).toNat % 64) ((s.V[y]).toNat % 32) n.val j.val)) ∧
      (∀ j : Reg, j ≠ VF → t.V[j] = s.V[j]) ∧ Advanced s t ∧ Unchanged [.V, .fb, .pc] s t)

/-- R174 (1) and (4), in part the spec's own derivation: drawing the same sprite twice at the same place restores the frame buffer; where the pixels it
touches were off before, and it touches one, the second draw leaves VF = 1; where it touches none, VF = 0. -/
def Obligations.DrawingTwiceRestoresTheScreen : Prop :=
  ∀ (x y : Reg) (n : Height) (s t u : State), exec (.drw x y n) s = .next t →
    u.fb = t.fb → u.I = s.I → (∀ a : Nat, u.mem.read a = s.mem.read a) → u.V[x] = s.V[x] → u.V[y] = s.V[y] →
    ∃ w, exec (.drw x y n) u = .next w ∧ w.fb = s.fb ∧
      ((∃ j : Fin 2048, t.fb[j] ≠ s.fb[j]) → (∀ j : Fin 2048, t.fb[j] ≠ s.fb[j] → s.fb[j] = false) → w.V[VF] = 1) ∧
      ((∀ j : Fin 2048, t.fb[j] = s.fb[j]) → w.V[VF] = 0)

/-- R174 (2): with its origin at (63, 31) a sprite only ever sets pixel (63, 31), with no error for the rest. -/
def Obligations.CornerSpriteTouchesOnePixel : Prop :=
  ∀ (x y : Reg) (n : Height) (s : State), s.I.toNat + n.val ≤ 4096 → (s.V[x]).toNat % 64 = 63 →
    (s.V[y]).toNat % 32 = 31 → ∃ t, exec (.drw x y n) s = .next t ∧ ∀ j : Fin 2048, j.val ≠ 2047 → t.fb[j] = s.fb[j]

/-! ### Input and timers -/

/-- R190 and R191: SKP and SKNP test the level of key V[x]; above 15 they raise `InvalidKey`. -/
def Obligations.KeySkipsTestTheKeyLevel : Prop :=
  ∀ (x : Reg) (s : State), HasOpcode (.skp x) (0xE09E + x.val * 256) ∧ HasOpcode (.sknp x) (0xE0A1 + x.val * 256) ∧
    (15 < (s.V[x]).toNat → exec (.skp x) s = .fault .invalidKey ∧ exec (.sknp x) s = .fault .invalidKey) ∧
    (∀ k : Reg, (s.V[x]).toNat = k.val →
      (∃ t, exec (.skp x) s = .next t ∧ Unchanged [.pc] s t ∧
        t.pc.toNat = (s.pc.toNat + if s.keys[k] = true then 4 else 2) % 65536) ∧
      (∃ t, exec (.sknp x) s = .next t ∧ Unchanged [.pc] s t ∧
        t.pc.toNat = (s.pc.toNat + if s.keys[k] = false then 4 else 2) % 65536))

/-- R192: with no key down LD Vx, K is a completed step that changes nothing; else it stores the lowest key down and
advances. -/
def Obligations.KeyWaitStoresTheLowestKeyDown : Prop :=
  ∀ (x : Reg) (s : State), HasOpcode (.ldVxK x) (0xF00A + x.val * 256) ∧
    ((∀ k : Reg, s.keys[k] = false) → exec (.ldVxK x) s = .next s) ∧
    (∀ k : Reg, s.keys[k] = true → (∀ j : Reg, j < k → s.keys[j] = false) →
      ∃ t, exec (.ldVxK x) s = .next t ∧ (∀ j : Reg, (t.V[j]).toNat = if j = x then k.val else (s.V[j]).toNat) ∧
        Advanced s t ∧ Unchanged [.V, .pc] s t)

/-- A RUN at the key wait with no key down uses its whole budget and changes nothing (R294, which the spec marks as
derived). -/
def Obligations.KeyWaitUsesTheWholeBudget : Prop :=
  ∀ (x : Reg) (s : State) (op : Word), s.pc.toNat ≤ 0xFFE → OpcodeAtPc s op → op.toNat = 0xF00A + x.val * 256 →
    (∀ k : Reg, s.keys[k] = false) → ∀ n : Nat, run n s = (s, .ok)

/-- R193, R194, R195: the timer transfers copy, and no timer counts down. -/
def Obligations.TimerTransfersCopy : Prop :=
  ∀ (x : Reg) (s : State),
    (HasOpcode (.ldVxDT x) (0xF007 + x.val * 256) ∧ ∃ t, exec (.ldVxDT x) s = .next t ∧
      (∀ j : Reg, t.V[j] = if j = x then s.DT else s.V[j]) ∧ Advanced s t ∧ Unchanged [.V, .pc] s t) ∧
    (HasOpcode (.ldDTVx x) (0xF015 + x.val * 256) ∧ ∃ t, exec (.ldDTVx x) s = .next t ∧ t.DT = s.V[x] ∧
      Advanced s t ∧ Unchanged [.DT, .pc] s t) ∧
    (HasOpcode (.ldSTVx x) (0xF018 + x.val * 256) ∧ ∃ t, exec (.ldSTVx x) s = .next t ∧ t.ST = s.V[x] ∧
      Advanced s t ∧ Unchanged [.ST, .pc] s t)

/-! ### Glyph address, BCD, bulk transfer, memory -/

/-- R210: LD F gives the glyph's address for a digit 0..15 and raises `InvalidDigit` above. -/
def Obligations.GlyphAddressOrInvalidDigit : Prop :=
  ∀ (x : Reg) (s : State), HasOpcode (.ldF x) (0xF029 + x.val * 256) ∧
    (15 < (s.V[x]).toNat → exec (.ldF x) s = .fault .invalidDigit) ∧
    ((s.V[x]).toNat ≤ 15 → ∃ t, exec (.ldF x) s = .next t ∧ t.I.toNat = 0x50 + 5 * (s.V[x]).toNat ∧
      Advanced s t ∧ Unchanged [.I, .pc] s t)

/-- R211: LD B stores hundreds, tens and ones at I, I+1, I+2; every other byte reads as before; I + 3 beyond memory raises
`InvalidAddress`. -/
def Obligations.BcdStoresThreeDigits : Prop :=
  ∀ (x : Reg) (s : State), HasOpcode (.ldB x) (0xF033 + x.val * 256) ∧
    (4096 < s.I.toNat + 3 → exec (.ldB x) s = .fault .invalidAddress) ∧
    (s.mem.wf = true → s.I.toNat + 3 ≤ 4096 → ∃ t, exec (.ldB x) s = .next t ∧
      (t.mem.read s.I.toNat).toNat = (s.V[x]).toNat / 100 ∧
      (t.mem.read (s.I.toNat + 1)).toNat = (s.V[x]).toNat / 10 % 10 ∧
      (t.mem.read (s.I.toNat + 2)).toNat = (s.V[x]).toNat % 10 ∧
      (∀ a : Nat, a < s.I.toNat ∨ s.I.toNat + 3 ≤ a → t.mem.read a = s.mem.read a) ∧
      Advanced s t ∧ Unchanged [.mem, .pc] s t)

/-- R212: LD [I], Vx stores V0..Vx at I.., one byte each; every other byte reads as before; I is unchanged under the
decided `BULK_I`, and I + x + 1 under `INCREMENT`. -/
def Obligations.BulkStoreWritesRegistersInOrder : Prop :=
  ∀ (x : Reg) (s : State), HasOpcode (.storeRegs x) (0xF055 + x.val * 256) ∧
    (4096 < s.I.toNat + x.val + 1 → exec (.storeRegs x) s = .fault .invalidAddress) ∧
    (s.mem.wf = true → s.I.toNat + x.val + 1 ≤ 4096 →
      (∃ t, exec (.storeRegs x) s = .next t ∧
        (∀ k : Reg, k ≤ x → t.mem.read (s.I.toNat + k.val) = s.V[k]) ∧
        (∀ a : Nat, a < s.I.toNat ∨ s.I.toNat + x.val + 1 ≤ a → t.mem.read a = s.mem.read a) ∧
        Advanced s t ∧ Unchanged [.mem, .pc] s t) ∧
      (∀ cfg : Config, cfg.bulkInclusive = true → cfg.bulkI = .increment → ∃ t, storeRegsWith cfg x s = .next t ∧
        t.I.toNat = s.I.toNat + x.val + 1 ∧ (∀ k : Reg, k ≤ x → t.mem.read (s.I.toNat + k.val) = s.V[k]) ∧
        (∀ a : Nat, a < s.I.toNat ∨ s.I.toNat + x.val + 1 ≤ a → t.mem.read a = s.mem.read a) ∧
        Advanced s t ∧ Unchanged [.mem, .I, .pc] s t))

/-- R213: LD Vx, [I] loads V0..Vx from I.., leaves the registers above x, memory and I as they were. -/
def Obligations.BulkLoadReadsRegistersInOrder : Prop :=
  ∀ (x : Reg) (s : State), HasOpcode (.loadRegs x) (0xF065 + x.val * 256) ∧
    (4096 < s.I.toNat + x.val + 1 → exec (.loadRegs x) s = .fault .invalidAddress) ∧
    (s.I.toNat + x.val + 1 ≤ 4096 →
      (∃ t, exec (.loadRegs x) s = .next t ∧
        (∀ k : Reg, t.V[k] = if k ≤ x then s.mem.read (s.I.toNat + k.val) else s.V[k]) ∧
        Advanced s t ∧ Unchanged [.V, .pc] s t) ∧
      (∀ cfg : Config, cfg.bulkInclusive = true → cfg.bulkI = .increment → ∃ t, loadRegsWith cfg x s = .next t ∧
        t.I.toNat = s.I.toNat + x.val + 1 ∧
        (∀ k : Reg, t.V[k] = if k ≤ x then s.mem.read (s.I.toNat + k.val) else s.V[k]) ∧
        Advanced s t ∧ Unchanged [.V, .I, .pc] s t))

/-- R54: a byte written reads back, for every address below 4096; at and above, both accesses raise `InvalidAddress`. -/
def Obligations.ByteWrittenReadsBack : Prop :=
  ∀ (m : Memory) (a : Nat) (b : Byte),
    (m.wf = true → a < 4096 → ∃ m', memWrite m a [b] = .ok m' ∧ memRead m' a 1 = .ok [b]) ∧
    (4096 ≤ a → memRead m a 1 = .error .invalidAddress ∧ memWrite m a [b] = .error .invalidAddress)

/-- The range accesses move a whole range or nothing: byte k goes to or comes from addr + k, every other byte is unchanged,
and a range beyond 4096 raises `InvalidAddress` (R52 and R53). The canonical form, and that a write keeps it, is the
model's DESIGN CHOICE (log entry 2). -/
def Obligations.RangeAccessesAreAllOrNothing : Prop :=
  (∀ (m : Memory) (addr n : Nat), addr + n ≤ 4096 →
    ∃ bytes, memRead m addr n = .ok bytes ∧ bytes.length = n ∧ ∀ k : Nat, k < n → bytes[k]? = some (m.read (addr + k))) ∧
  (∀ (m : Memory) (addr n : Nat), 4096 < addr + n → memRead m addr n = .error .invalidAddress) ∧
  (∀ (m : Memory) (addr : Nat) (bytes : List Byte), m.wf = true → addr + bytes.length ≤ 4096 →
    ∃ m', memWrite m addr bytes = .ok m' ∧ m'.wf = true ∧
      (∀ k : Nat, k < bytes.length → some (m'.read (addr + k)) = bytes[k]?) ∧
      (∀ a : Nat, a < addr ∨ addr + bytes.length ≤ a → m'.read a = m.read a)) ∧
  (∀ (m : Memory) (addr : Nat) (bytes : List Byte), 4096 < addr + bytes.length →
    memWrite m addr bytes = .error .invalidAddress)

/-- Canonical memories that read alike are equal, so that equality of states is equality of what a program can see. -/
def Obligations.CanonicalMemoriesReadingAlikeAreEqual : Prop :=
  ∀ m m' : Memory, m.wf = true → m'.wf = true → (∀ a : Nat, a < 4096 → m.read a = m'.read a) → m = m'

/-- What LD [I], Vx stores at the next instruction's address is what the next step fetches and runs (R63 and R292, which
the spec marks as derived). -/
def Obligations.StoredCodeRunsAtTheNextStep : Prop :=
  ∀ (x : Reg) (s t : State) (op : Word) (i : Instr), s.mem.wf = true → exec (.storeRegs x) s = .next t →
    s.I.toNat = s.pc.toNat + 2 → 1 ≤ x.val → op.toNat = (s.V[(0 : Reg)]).toNat * 256 + (s.V[(1 : Reg)]).toNat →
    decode op = .ok i → step t = exec i t

/-! ### Reset and the host's commands -/

/-- RESET, from any state (and so at power-on, R282): every register, timer, key and pixel zero, pc = 0x200, the stack
empty, memory zero but for the glyph table, and the random source not touched (R280). The first clause, that with no draw
taken yet the result is `State.reset`, rests on the draw counter and its value 0 there, the model's DESIGN CHOICE (log
entry 1). -/
def Obligations.ResetCommandEstablishesTheResetState : Prop :=
  ∀ s : State, (s.rng = 0 → command .reset s = (State.reset, .none)) ∧
    ∃ t, command .reset s = (t, .none) ∧ t.pc.toNat = 0x200 ∧ t.I.toNat = 0 ∧
    (∀ j : Reg, (t.V[j]).toNat = 0) ∧ t.sp.val = 0 ∧ (∀ k : Fin 16, (t.stack[k]).toNat = 0) ∧
    (∀ k : Reg, t.keys[k] = false) ∧ t.DT.toNat = 0 ∧ t.ST.toNat = 0 ∧ (∀ j : Fin 2048, t.fb[j] = false) ∧
    (∀ (d : Fin 16) (r : Fin 5), t.mem.read (0x50 + 5 * d.val + r.val) = standardFont[d][r]) ∧
    (∀ a : Nat, a < 0x50 ∨ 0x9F < a → t.mem.read a = 0) ∧ t.rng = s.rng

/-- R283: LOAD writes the image at 0x200 and resets registers and frame buffer, keeping every other byte; an image that
does not fit changes nothing. -/
def Obligations.LoadWritesTheImageAndResetsRegisters : Prop :=
  ∀ (bytes : List Byte) (s : State), s.mem.wf = true →
    (4096 < 0x200 + bytes.length → command (.load bytes) s = (s, .err .invalidAddress)) ∧
    (0x200 + bytes.length ≤ 4096 → ∃ t, command (.load bytes) s = (t, .ok) ∧
      (∀ k : Nat, k < bytes.length → some (t.mem.read (0x200 + k)) = bytes[k]?) ∧
      (∀ a : Nat, a < 0x200 ∨ 0x200 + bytes.length ≤ a → t.mem.read a = s.mem.read a) ∧
      t.pc.toNat = 0x200 ∧ t.I.toNat = 0 ∧ (∀ j : Reg, (t.V[j]).toNat = 0) ∧ t.sp.val = 0 ∧
      (∀ k : Fin 16, (t.stack[k]).toNat = 0) ∧ (∀ k : Reg, t.keys[k] = false) ∧ t.DT.toNat = 0 ∧ t.ST.toNat = 0 ∧
      (∀ j : Fin 2048, t.fb[j] = false) ∧ t.rng = s.rng)

/-- R245: TIMER_TICK takes one from each non-zero timer, leaves a zero timer at zero, and changes nothing else. -/
def Obligations.TimerTickCountsDownToZero : Prop :=
  ∀ s : State, ∃ t, command .timerTick s = (t, .none) ∧ t.DT.toNat = s.DT.toNat - 1 ∧ t.ST.toNat = s.ST.toNat - 1 ∧
    Unchanged [.DT, .ST] s t

/-- R253: KEY_DOWN and KEY_UP set and clear one key and change nothing else. -/
def Obligations.KeyCommandsSetOneKey : Prop :=
  ∀ (k : Reg) (s : State),
    (∃ t, command (.keyDown k) s = (t, .none) ∧ (∀ j : Reg, t.keys[j] = if j = k then true else s.keys[j]) ∧
      Unchanged [.keys] s t) ∧
    (∃ t, command (.keyUp k) s = (t, .none) ∧ (∀ j : Reg, t.keys[j] = if j = k then false else s.keys[j]) ∧
      Unchanged [.keys] s t)

/-- R255 and R256: FRAME returns each pixel as a byte 0 or 1, READ_STATE a copy of the state; neither changes it. -/
def Obligations.ReadCommandsChangeNothing : Prop :=
  ∀ s : State, command .readState s = (s, .copy s) ∧
    ∃ bytes, command .frame s = (s, .pixels bytes) ∧
      ∀ j : Fin 2048, (bytes[j]).toNat = if s.fb[j] = true then 1 else 0

/-- R251 and R235: RUN(N) returns the error of its k-th step, with the state the steps before it left, exactly when they
complete and that step raises it. -/
def Obligations.RunStopsAtTheFirstError : Prop :=
  ∀ (n : Nat) (s t : State) (e : Fault),
    run n s = (t, .err e) ↔ ∃ k : Nat, k < n ∧ run k s = (t, .ok) ∧ step t = .fault e

/-- R251: RUN(N) returns Ok exactly when N steps complete, and it is the host's run of the core; RUN(m + n) is RUN(m) and
then RUN(n). -/
def Obligations.RunIsRepeatedSteps : Prop :=
  (∀ (n : Nat) (s t : State), run n s = (t, .ok) ↔ Host.Core.run Sys2Proof.core n s = .next t) ∧
  (∀ (m n : Nat) (s t : State), run m s = (t, .ok) → run (m + n) s = run n t)

/-! ### Invariants -/

/-- The invariant holds at reset. Its canonical memory is the model's DESIGN CHOICE (log entry 2); the two ranges are
read from the spec's reset values. -/
def Obligations.ResetMeetsTheInvariant : Prop := State.reset.Inv

/-- Every step keeps the invariant: canonical memory (the model's DESIGN CHOICE, log entry 2), return addresses at most
0xFFE, pc at most 0x10FE. -/
def Obligations.StepKeepsTheInvariant : Prop := ∀ s t : State, s.Inv → step s = .next t → t.Inv

/-- Every state a host can bring the core to from power-on meets the invariant, whatever commands it issues in whatever
order. The invariant's canonical memory is the model's DESIGN CHOICE (log entry 2). -/
def Obligations.ReachableStatesMeetTheInvariant : Prop := ∀ s : State, Reachable s → s.Inv

/-- A step executes only at pc <= 0xFFE, and the pc it writes is at most the bound of its instruction, so pc never wraps
at 16 bits (R296, which the spec marks as derived). -/
def Obligations.PcNeverWraps : Prop :=
  ∀ (s t : State) (op : Word) (i : Instr), s.Inv → OpcodeAtPc s op → decode op = .ok i → step s = .next t →
    s.pc.toNat ≤ 0xFFE ∧ t.pc.toNat ≤ pcBound i

/-! ### The configuration points -/

/-- Every configuration point is an argument (R8), and the machine is the configured machine at the decided values (which
of the two is the definition is the model's choice, log entry 7). In order: the decided values; step and every command
agree at them; the meaning of each instruction whose rule names a point is the operation at that point (what the
operations compute at each alternative is in the statements about the instructions), it is `exec` wherever its own points
have their decided values, and every other instruction is `exec` at any configuration; the bulk transfers at any
`BULK_INCLUSIVE` and `BULK_I` (the exclusive form is DEDUCED, log entry 11); the step at any configuration, with
`SKIP_REG_STRICT` deciding 5xyn and 9xyn for n not 0 and no point deciding any other opcode; RUN as repeated steps; RESET
with the glyph table of `FONT`, the memory canonical (DESIGN CHOICE, log entry 2), and everything else as RESET does, and
every other command as it is; the reset state (its draw count is DESIGN CHOICE, log entry 1); and the budget as the floor
of `IPS` times the elapsed seconds num / den (R262). -/
def Obligations.EveryConfigurationPointIsAnArgument : Prop :=
  decidedConfig = ⟨.notBorrow, .vx, .bit, .unchanged, .unchanged, true, .unchanged, standardFont, true, 700⟩ ∧
  (∀ s : State, stepWith decidedConfig Config.randByte s = step s) ∧
  (∀ (c : Command) (s : State), commandWith decidedConfig Config.randByte c s = command c s) ∧
  -- The instructions whose rule names a point.
  (∀ (cfg : Config) (draws : Nat → Byte) (s : State) (x y : Reg) (kk : Byte),
    execWith cfg draws (.addImm x kk) s = addImmWith cfg x kk s ∧
    (cfg.addiVf = .unchanged → execWith cfg draws (.addImm x kk) s = exec (.addImm x kk) s) ∧
    execWith cfg draws (.orReg x y) s = orWith cfg x y s ∧
    execWith cfg draws (.andReg x y) s = andWith cfg x y s ∧
    execWith cfg draws (.xorReg x y) s = xorWith cfg x y s ∧
    (cfg.logicVf = .unchanged → execWith cfg draws (.orReg x y) s = exec (.orReg x y) s ∧
      execWith cfg draws (.andReg x y) s = exec (.andReg x y) s ∧
      execWith cfg draws (.xorReg x y) s = exec (.xorReg x y) s) ∧
    execWith cfg draws (.sub x y) s = subWith cfg x y s ∧
    execWith cfg draws (.subn x y) s = subnWith cfg x y s ∧
    (cfg.subVf = .notBorrow → execWith cfg draws (.sub x y) s = exec (.sub x y) s ∧
      execWith cfg draws (.subn x y) s = exec (.subn x y) s) ∧
    execWith cfg draws (.shr x y) s = shrWith cfg x y s ∧
    (cfg.shiftSrc = .vx → execWith cfg draws (.shr x y) s = exec (.shr x y) s) ∧
    execWith cfg draws (.shl x y) s = shlWith cfg x y s ∧
    (cfg.shiftSrc = .vx → cfg.shiftVf = .bit → execWith cfg draws (.shl x y) s = exec (.shl x y) s) ∧
    execWith cfg draws (.rnd x kk) s = rndWith (draws s.rng) x kk s ∧
    execWith cfg draws (.storeRegs x) s = storeRegsWith cfg x s ∧
    execWith cfg draws (.loadRegs x) s = loadRegsWith cfg x s ∧
    (cfg.bulkInclusive = true → cfg.bulkI = .unchanged →
      execWith cfg draws (.storeRegs x) s = exec (.storeRegs x) s ∧
      execWith cfg draws (.loadRegs x) s = exec (.loadRegs x) s)) ∧
  (∀ (cfg : Config) (draws : Nat → Byte) (i : Instr) (s : State), namesConfigurationPoint i = false →
    execWith cfg draws i s = exec i s) ∧
  -- The bulk transfers of `count` registers, at any configuration.
  (∀ (cfg : Config) (draws : Nat → Byte) (x : Reg) (s : State) (count : Nat),
    count = (if cfg.bulkInclusive = true then x.val + 1 else x.val) →
    (4096 < s.I.toNat + count → execWith cfg draws (.storeRegs x) s = .fault .invalidAddress ∧
      execWith cfg draws (.loadRegs x) s = .fault .invalidAddress) ∧
    (s.I.toNat + count ≤ 4096 →
      (s.mem.wf = true → ∃ t, execWith cfg draws (.storeRegs x) s = .next t ∧
        (∀ k : Reg, k.val < count → t.mem.read (s.I.toNat + k.val) = s.V[k]) ∧
        (∀ a : Nat, a < s.I.toNat ∨ s.I.toNat + count ≤ a → t.mem.read a = s.mem.read a) ∧
        t.I.toNat = (if cfg.bulkI = .increment then (s.I.toNat + x.val + 1) % 65536 else s.I.toNat) ∧
        Advanced s t ∧ Unchanged [.mem, .I, .pc] s t) ∧
      (∃ t, execWith cfg draws (.loadRegs x) s = .next t ∧
        (∀ k : Reg, t.V[k] = if k.val < count then s.mem.read (s.I.toNat + k.val) else s.V[k]) ∧
        t.I.toNat = (if cfg.bulkI = .increment then (s.I.toNat + x.val + 1) % 65536 else s.I.toNat) ∧
        Advanced s t ∧ Unchanged [.V, .I, .pc] s t))) ∧
  -- The step, and what SKIP_REG_STRICT decides.
  (∀ (cfg : Config) (draws : Nat → Byte) (s : State), 4096 < s.pc.toNat + 2 →
    stepWith cfg draws s = .fault .invalidAddress) ∧
  (∀ (cfg : Config) (op : Word), ¬ ((op.toNat / 4096 = 5 ∨ op.toNat / 4096 = 9) ∧ op.toNat % 16 ≠ 0) →
    decodeWith cfg op = decode op) ∧
  (∀ (cfg : Config) (draws : Nat → Byte) (s : State) (op : Word), s.pc.toNat + 2 ≤ 4096 → OpcodeAtPc s op →
    (∀ i : Instr, decodeWith cfg op = .ok i → stepWith cfg draws s = execWith cfg draws i s) ∧
    (∀ r : Reject, decodeWith cfg op = .error r → stepWith cfg draws s = .fault (.invalidInstruction s.pc op)) ∧
    (∀ (x y : Reg) (n : Nat), 0 < n → n < 16 →
      (op.toNat = 0x5000 + x.val * 256 + y.val * 16 + n → stepWith cfg draws s =
        if cfg.skipRegStrict = true then .fault (.invalidInstruction s.pc op) else exec (.seReg x y) s) ∧
      (op.toNat = 0x9000 + x.val * 256 + y.val * 16 + n → stepWith cfg draws s =
        if cfg.skipRegStrict = true then .fault (.invalidInstruction s.pc op) else exec (.sneReg x y) s))) ∧
  -- RUN and the other commands.
  (∀ (cfg : Config) (draws : Nat → Byte) (n : Nat) (s t : State) (e : Fault),
    commandWith cfg draws (.run 0) s = (s, .ok) ∧
    (stepWith cfg draws s = .next t → commandWith cfg draws (.run (n + 1)) s = commandWith cfg draws (.run n) t) ∧
    (stepWith cfg draws s = .fault e → commandWith cfg draws (.run (n + 1)) s = (s, .err e))) ∧
  (∀ (cfg : Config) (draws : Nat → Byte) (s : State), ∃ t, commandWith cfg draws .reset s = (t, .none) ∧
    (∀ (d : Fin 16) (r : Fin 5), t.mem.read (0x50 + 5 * d.val + r.val) = cfg.font[d][r]) ∧
    (∀ a : Nat, a < 0x50 ∨ 0x9F < a → t.mem.read a = 0) ∧ t.mem.wf = true ∧
    Unchanged [.mem] (command .reset s).1 t ∧ (s.rng = 0 → resetWith cfg = t)) ∧
  (∀ (cfg : Config) (draws : Nat → Byte) (c : Command) (s : State), (∀ n : Nat, c ≠ .run n) → c ≠ .reset →
    commandWith cfg draws c s = command c s) ∧
  (∀ (cfg : Config) (num den : Nat), 0 < den →
    tickBudget cfg num den * den ≤ cfg.ips * num ∧ cfg.ips * num < (tickBudget cfg num den + 1) * den)
end

