-- ==== Sys2Proof/Laws/Encoding.lean ====
section
/-! SUPPORT. The bit fields as numbers: the value of a composed opcode, and of each operand field of one
(30_encoding.md R81, R82; 20_memory.md R55). -/

namespace Sys2Proof

/-- The value of a concatenation: the left part above the right part. -/
theorem toNat_concat {m n : Nat} (a : BitVec m) (b : BitVec n) : (a ++ b).toNat = a.toNat * 2 ^ n + b.toNat := by
  rw [BitVec.toNat_append, Nat.shiftLeft_eq, Nat.mul_comm, Nat.two_pow_add_eq_or_of_lt b.isLt]

/-- `op = b0 * 256 + b1` (20_memory.md R55). -/
theorem opcodeOfBytes_toNat (b0 b1 : Byte) : (opcodeOfBytes b0 b1).toNat = b0.toNat * 256 + b1.toNat :=
  toNat_concat b0 b1

theorem nibble_toNat (x : Fin 16) : (nibble x).toNat = x.val := rfl

theorem encAddr_toNat (o : BitVec 4) (nnn : Addr12) : (encAddr o nnn).toNat = o.toNat * 4096 + nnn.toNat :=
  toNat_concat o nnn

theorem encRegImm_toNat (o : BitVec 4) (x : Reg) (kk : Byte) :
    (encRegImm o x kk).toNat = o.toNat * 4096 + x.val * 256 + kk.toNat := by
  have h1 := toNat_concat (o ++ nibble x) kk
  have h2 := toNat_concat o (nibble x)
  have h : (encRegImm o x kk).toNat = ((o ++ nibble x) ++ kk).toNat := rfl
  rw [nibble_toNat] at h2
  omega

theorem encRegReg_toNat (o : BitVec 4) (x y : Reg) (f : BitVec 4) :
    (encRegReg o x y f).toNat = o.toNat * 4096 + x.val * 256 + y.val * 16 + f.toNat := by
  have h1 := toNat_concat (o ++ nibble x) (nibble y ++ f)
  have h2 := toNat_concat o (nibble x)
  have h3 := toNat_concat (nibble y) f
  have h : (encRegReg o x y f).toNat = ((o ++ nibble x) ++ (nibble y ++ f)).toNat := rfl
  rw [nibble_toNat] at h2 h3
  omega

theorem encReg_toNat (o : BitVec 4) (x : Reg) (ff : Byte) :
    (encReg o x ff).toNat = o.toNat * 4096 + x.val * 256 + ff.toNat := encRegImm_toNat o x ff

theorem fieldX_val (w : Word) : (fieldX w).val = w.toNat / 256 % 16 := by
  have h : (fieldX w).val = (w.extractLsb' 8 4).toNat := rfl
  simp [h, BitVec.extractLsb'_toNat, Nat.shiftRight_eq_div_pow]

theorem fieldY_val (w : Word) : (fieldY w).val = w.toNat / 16 % 16 := by
  have h : (fieldY w).val = (w.extractLsb' 4 4).toNat := rfl
  simp [h, BitVec.extractLsb'_toNat, Nat.shiftRight_eq_div_pow]

theorem fieldN_val (w : Word) : (fieldN w).val = w.toNat % 16 := by
  have h : (fieldN w).val = (w.extractLsb' 0 4).toNat := rfl
  simp [h, BitVec.extractLsb'_toNat]

theorem fieldKK_toNat (w : Word) : (fieldKK w).toNat = w.toNat % 256 := by
  simp [fieldKK, BitVec.extractLsb'_toNat]

theorem fieldNNN_toNat (w : Word) : (fieldNNN w).toNat = w.toNat % 4096 := by
  simp [fieldNNN, BitVec.extractLsb'_toNat]

/-- The bytes of a composed opcode are the bytes composed (20_memory.md R55). -/
theorem bytesOfOpcode_opcodeOfBytes (b0 b1 : Byte) : bytesOfOpcode (opcodeOfBytes b0 b1) = [b0, b1] := by
  have h := opcodeOfBytes_toNat b0 b1
  simp only [bytesOfOpcode, List.cons.injEq, and_true]
  constructor <;> apply BitVec.eq_of_toNat_eq <;> rw [BitVec.extractLsb'_toNat, h]
  · rw [Nat.shiftRight_eq_div_pow]; omega
  · rw [Nat.shiftRight_zero]; omega

/-- Composing the bytes of an opcode gives the opcode. -/
theorem opcodeOfBytes_bytesOfOpcode (w : Word) : opcodeOfBytes (w.extractLsb' 8 8) (w.extractLsb' 0 8) = w := by
  apply BitVec.eq_of_toNat_eq
  rw [opcodeOfBytes_toNat, BitVec.extractLsb'_toNat, BitVec.extractLsb'_toNat, Nat.shiftRight_eq_div_pow]
  have := w.isLt
  simp only [Nat.shiftRight_zero]
  omega

/-! ### The three masks that keep fields, as numbers -/

theorem and_F000_toNat (w : Word) : (w &&& 0xF000#16).toNat = w.toNat / 4096 * 4096 := by
  have h : w &&& 0xF000#16 = (w >>> 12) <<< 12 := by
    ext i hi
    interval_cases i <;> simp
  rw [h]
  have := w.isLt
  simp [Nat.shiftRight_eq_div_pow, Nat.shiftLeft_eq]
  omega

theorem and_low_toNat (w : Word) (k : Nat) (hk : k ≤ 16) :
    (w &&& BitVec.ofNat 16 (2 ^ k - 1)).toNat = w.toNat % 2 ^ k := by
  have : 2 ^ k ≤ 2 ^ 16 := Nat.pow_le_pow_right (by omega) hk
  rw [BitVec.toNat_and, BitVec.toNat_ofNat, Nat.mod_eq_of_lt (by omega), Nat.and_two_pow_sub_one_eq_mod]

theorem and_F00F_toNat (w : Word) : (w &&& 0xF00F#16).toNat = w.toNat / 4096 * 4096 + w.toNat % 16 := by
  have h : w &&& 0xF00F#16 = (w &&& 0xF000#16) + (w &&& 0x000F#16) := by
    rw [BitVec.add_eq_or_of_and_eq_zero] <;> ext i hi <;> interval_cases i <;> simp
  rw [h, BitVec.toNat_add, and_F000_toNat, show (0x000F#16 : Word) = BitVec.ofNat 16 (2 ^ 4 - 1) from rfl,
    and_low_toNat w 4 (by omega)]
  have := w.isLt
  omega

theorem and_F0FF_toNat (w : Word) : (w &&& 0xF0FF#16).toNat = w.toNat / 4096 * 4096 + w.toNat % 256 := by
  have h : w &&& 0xF0FF#16 = (w &&& 0xF000#16) + (w &&& 0x00FF#16) := by
    rw [BitVec.add_eq_or_of_and_eq_zero] <;> ext i hi <;> interval_cases i <;> simp
  rw [h, BitVec.toNat_add, and_F000_toNat, show (0x00FF#16 : Word) = BitVec.ofNat 16 (2 ^ 8 - 1) from rfl,
    and_low_toNat w 8 (by omega)]
  have := w.isLt
  omega
/-! ### Fields read back from a composed opcode -/

@[simp] theorem fieldNNN_encAddr (o : BitVec 4) (nnn : Addr12) : fieldNNN (encAddr o nnn) = nnn := by
  apply BitVec.eq_of_toNat_eq
  rw [fieldNNN_toNat, encAddr_toNat]
  have := nnn.isLt
  omega

@[simp] theorem fieldX_encRegImm (o : BitVec 4) (x : Reg) (kk : Byte) : fieldX (encRegImm o x kk) = x := by
  apply Fin.ext
  rw [fieldX_val, encRegImm_toNat]
  have := kk.isLt
  omega

@[simp] theorem fieldKK_encRegImm (o : BitVec 4) (x : Reg) (kk : Byte) : fieldKK (encRegImm o x kk) = kk := by
  apply BitVec.eq_of_toNat_eq
  rw [fieldKK_toNat, encRegImm_toNat]
  have := kk.isLt
  omega

@[simp] theorem fieldX_encRegReg (o : BitVec 4) (x y : Reg) (f : BitVec 4) : fieldX (encRegReg o x y f) = x := by
  apply Fin.ext
  rw [fieldX_val, encRegReg_toNat]
  have := f.isLt
  omega

@[simp] theorem fieldY_encRegReg (o : BitVec 4) (x y : Reg) (f : BitVec 4) : fieldY (encRegReg o x y f) = y := by
  apply Fin.ext
  rw [fieldY_val, encRegReg_toNat]
  have := f.isLt
  omega

@[simp] theorem fieldN_encRegReg (o : BitVec 4) (x y : Reg) (n : Height) :
    fieldN (encRegReg o x y (nibble n)) = n := by
  apply Fin.ext
  rw [fieldN_val, encRegReg_toNat, nibble_toNat]
  omega

@[simp] theorem fieldX_encReg (o : BitVec 4) (x : Reg) (ff : Byte) : fieldX (encReg o x ff) = x :=
  fieldX_encRegImm o x ff

/-! ### When a row fits -/

theorem fits_iff (d : Descriptor) (w : Word) : d.fits w = true ↔ w &&& d.mask = d.id := by
  simp [Descriptor.fits]

/-- A row with the mask 0xF000 fits by the high nibble. -/
theorem fits_F000 (o : Op) (id w : Word) :
    Descriptor.fits ⟨o, id, 0xF000#16⟩ w = true ↔ w.toNat / 4096 * 4096 = id.toNat := by
  rw [fits_iff, ← and_F000_toNat, BitVec.toNat_inj]

/-- A row with the mask 0xF00F fits by the high and the low nibble. -/
theorem fits_F00F (o : Op) (id w : Word) :
    Descriptor.fits ⟨o, id, 0xF00F#16⟩ w = true ↔ w.toNat / 4096 * 4096 + w.toNat % 16 = id.toNat := by
  rw [fits_iff, ← and_F00F_toNat, BitVec.toNat_inj]

/-- A row with the mask 0xF0FF fits by the high nibble and the low byte. -/
theorem fits_F0FF (o : Op) (id w : Word) :
    Descriptor.fits ⟨o, id, 0xF0FF#16⟩ w = true ↔ w.toNat / 4096 * 4096 + w.toNat % 256 = id.toNat := by
  rw [fits_iff, ← and_F0FF_toNat, BitVec.toNat_inj]

/-- A row with the full mask fits one opcode. -/
theorem fits_FFFF (o : Op) (id w : Word) : Descriptor.fits ⟨o, id, 0xFFFF#16⟩ w = true ↔ w.toNat = id.toNat := by
  rw [fits_iff, show (0xFFFF#16 : Word) = BitVec.allOnes 16 from rfl, BitVec.and_allOnes, BitVec.toNat_inj]

end Sys2Proof
end

