-- ==== Sys2Proof/Laws/Memory.lean ====
section
/-! SUPPORT. The laws of memory: a read after a write, a write leaves every other byte alone, and every operation keeps
the canonical form; and what `memRead` and `memWrite` answer. -/

namespace Sys2Proof.Machine

namespace Memory

theorem read_entry_other {a a' : Nat} (b : Byte) (rest : Memory) (h : a' ≠ a) :
    (entry a b rest).read a' = rest.read a' := by
  unfold entry
  split <;> simp [read, h]

/-- A write leaves every other byte alone, whatever the list's form. -/
theorem read_write_other (m : Memory) {a a' : Nat} (b : Byte) (h : a' ≠ a) : (m.write a b).read a' = m.read a' := by
  induction m with
  | nil => exact read_entry_other b [] h
  | cons kc rest ih =>
    obtain ⟨k, c⟩ := kc
    unfold write
    split
    · exact read_entry_other b _ h
    · split
      · rename_i hk
        rw [read_entry_other b _ h]
        simp [read, show a' ≠ k from hk ▸ h]
      · simp only [read, ih]

/-- Below the first address a canonical list lists nothing. -/
theorem read_below {lo : Nat} {m : Memory} (hw : wfFrom lo m = true) {a : Nat} (h : a < lo) :
    m.read a = unlistedByte a := by
  induction m generalizing lo with
  | nil => rfl
  | cons kc rest ih =>
    obtain ⟨k, c⟩ := kc
    simp only [wfFrom, Bool.and_eq_true, decide_eq_true_eq] at hw
    simp only [read, show a ≠ k by omega, if_false]
    exact ih hw.2 (by omega)

theorem read_entry_same {lo : Nat} {m : Memory} (hw : wfFrom lo m = true) {a : Nat} (b : Byte) (h : a < lo) :
    (entry a b m).read a = b := by
  unfold entry
  split
  · rename_i hb
    rw [read_below hw h, hb]
  · simp [read]

/-- A read after a write to the same address gives the value written. -/
theorem read_write_same {lo : Nat} {m : Memory} (hw : wfFrom lo m = true) (a : Nat) (b : Byte) :
    (m.write a b).read a = b := by
  induction m generalizing lo with
  | nil => exact read_entry_same (lo := a + 1) (m := []) rfl b (by omega)
  | cons kc rest ih =>
    obtain ⟨k, c⟩ := kc
    have hw' := hw
    simp only [wfFrom, Bool.and_eq_true, decide_eq_true_eq] at hw
    unfold write
    split
    · rename_i hk
      refine read_entry_same (lo := k) ?_ b hk
      simp only [wfFrom, Bool.and_eq_true, decide_eq_true_eq]
      exact ⟨⟨⟨le_refl k, hw.1.1.2⟩, hw.1.2⟩, hw.2⟩
    · split
      · rename_i hk
        exact read_entry_same hw.2 b (by omega)
      · rename_i hk
        simp only [read, hk, if_false]
        exact ih hw.2

theorem wfFrom_mono {lo lo' : Nat} {m : Memory} (hw : wfFrom lo m = true) (h : lo' ≤ lo) : wfFrom lo' m = true := by
  cases m with
  | nil => rfl
  | cons kc rest =>
    obtain ⟨k, c⟩ := kc
    simp only [wfFrom, Bool.and_eq_true, decide_eq_true_eq] at hw ⊢
    exact ⟨⟨⟨by omega, hw.1.1.2⟩, hw.1.2⟩, hw.2⟩

theorem wfFrom_entry {lo a : Nat} {b : Byte} {m : Memory} (hw : wfFrom (a + 1) m = true) (hlo : lo ≤ a)
    (ha : a < memSize) : wfFrom lo (entry a b m) = true := by
  unfold entry
  split
  · exact wfFrom_mono hw (by omega)
  · rename_i hb
    simp [wfFrom, hlo, ha, hb, hw]

/-- A write inside the address space keeps the canonical form. -/
theorem wfFrom_write {lo : Nat} {m : Memory} (hw : wfFrom lo m = true) {a : Nat} (b : Byte) (hlo : lo ≤ a)
    (ha : a < memSize) : wfFrom lo (m.write a b) = true := by
  induction m generalizing lo with
  | nil => exact wfFrom_entry (m := []) rfl hlo ha
  | cons kc rest ih =>
    obtain ⟨k, c⟩ := kc
    simp only [wfFrom, Bool.and_eq_true, decide_eq_true_eq] at hw
    unfold write
    split
    · refine wfFrom_entry ?_ hlo ha
      simp only [wfFrom, Bool.and_eq_true, decide_eq_true_eq]
      exact ⟨⟨⟨by omega, hw.1.1.2⟩, hw.1.2⟩, hw.2⟩
    · split
      · rename_i hk
        exact wfFrom_entry (hk ▸ hw.2) hlo ha
      · simp only [wfFrom, Bool.and_eq_true, decide_eq_true_eq]
        exact ⟨⟨⟨hw.1.1.1, hw.1.1.2⟩, hw.1.2⟩, ih hw.2 (by omega)⟩

/-- A multi-byte write inside the address space keeps the canonical form. -/
theorem wf_writeAll {m : Memory} (hw : m.wf = true) (a : Nat) (bs : List Byte) (h : a + bs.length ≤ memSize) :
    (m.writeAll a bs).wf = true := by
  induction bs generalizing m a with
  | nil => exact hw
  | cons b bs ih =>
    simp only [List.length_cons] at h
    exact ih (wfFrom_write hw b (Nat.zero_le a) (by omega)) (a + 1) (by omega)

/-- Outside its range a multi-byte write changes no byte. -/
theorem read_writeAll_outside (m : Memory) (a : Nat) (bs : List Byte) {a' : Nat} (h : a' < a ∨ a + bs.length ≤ a') :
    (m.writeAll a bs).read a' = m.read a' := by
  induction bs generalizing m a with
  | nil => rfl
  | cons b bs ih =>
    simp only [List.length_cons] at h
    simp only [writeAll]
    rw [ih _ _ (by omega), read_write_other m b (by omega)]

/-- Inside its range a multi-byte write puts byte k at address a + k. -/
theorem read_writeAll_inside {m : Memory} (hw : m.wf = true) (a : Nat) (bs : List Byte)
    (h : a + bs.length ≤ memSize) (k : Nat) (hk : k < bs.length) : (m.writeAll a bs).read (a + k) = bs[k] := by
  induction bs generalizing m a k with
  | nil => simp at hk
  | cons b bs ih =>
    simp only [List.length_cons] at h hk
    simp only [writeAll]
    have hw' : (m.write a b).wf = true := wfFrom_write hw b (Nat.zero_le a) (by omega)
    cases k with
    | zero =>
      rw [Nat.add_zero, read_writeAll_outside _ _ _ (by omega)]
      exact read_write_same hw a b
    | succ k =>
      rw [show a + (k + 1) = a + 1 + k by omega, ih hw' (a + 1) (by omega) k (by omega)]
      rfl

end Memory

/-- What `memRead` answers (20_memory.md R52). -/
theorem memRead_ok_iff {m : Memory} {addr n : Nat} {bytes : List Byte} :
    memRead m addr n = .ok bytes ↔ addr + n ≤ 4096 ∧ bytes = (List.range n).map fun k => m.read (addr + k) := by
  unfold memRead memSize
  split <;> simp_all [eq_comm]

theorem memRead_error_iff {m : Memory} {addr n : Nat} {e : Fault} :
    memRead m addr n = .error e ↔ 4096 < addr + n ∧ e = .invalidAddress := by
  unfold memRead memSize
  split <;> simp_all [eq_comm]

/-- What `memWrite` answers (20_memory.md R53). -/
theorem memWrite_ok_iff {m m' : Memory} {addr : Nat} {bytes : List Byte} :
    memWrite m addr bytes = .ok m' ↔ addr + bytes.length ≤ 4096 ∧ m' = m.writeAll addr bytes := by
  unfold memWrite memSize
  split <;> simp_all [eq_comm]

theorem memWrite_error_iff {m : Memory} {addr : Nat} {bytes : List Byte} {e : Fault} :
    memWrite m addr bytes = .error e ↔ 4096 < addr + bytes.length ∧ e = .invalidAddress := by
  unfold memWrite memSize
  split <;> simp_all [eq_comm]

/-- A write that succeeds keeps the canonical form. -/
theorem memWrite_wf {m m' : Memory} {addr : Nat} {bytes : List Byte} (hw : m.wf = true)
    (h : memWrite m addr bytes = .ok m') : m'.wf = true := by
  obtain ⟨hr, rfl⟩ := memWrite_ok_iff.mp h
  exact Memory.wf_writeAll hw addr bytes hr

end Sys2Proof.Machine
end

