-- ==== Sys2Proof/Laws/Ops.lean ====
section
/-! SUPPORT. What each shared operation answers: the call stack, the key set, the frame buffer's accessors, the checked
register access, fetch; and the decided configuration's fields. -/

namespace Sys2Proof.Machine

/-! ### The decided configuration -/

@[simp] theorem decidedConfig_subVf : decidedConfig.subVf = .notBorrow := rfl
@[simp] theorem decidedConfig_shiftSrc : decidedConfig.shiftSrc = .vx := rfl
@[simp] theorem decidedConfig_shiftVf : decidedConfig.shiftVf = .bit := rfl
@[simp] theorem decidedConfig_addiVf : decidedConfig.addiVf = .unchanged := rfl
@[simp] theorem decidedConfig_logicVf : decidedConfig.logicVf = .unchanged := rfl
@[simp] theorem bulkCount_decided (x : Reg) : bulkCount decidedConfig x = x.val + 1 := rfl
@[simp] theorem bulkIndex_decided (x : Reg) (i : Word) : bulkIndex decidedConfig x i = i := rfl
@[simp] theorem shiftSource_vx (s : State) (x y : Reg) : shiftSource .vx s x y = s.V[x] := rfl

/-! ### The call stack -/

/-- What `push` answers (10_state.md R28). -/
theorem push_cases (s : State) (v : Word) :
    (s.sp.val = 16 ∧ push s v = .error .stackOverflow) ∨
    (∃ h : s.sp.val < 16, push s v =
      .ok { s with stack := s.stack.set s.sp.val v, sp := ⟨s.sp.val + 1, by omega⟩ }) := by
  unfold push
  split
  · rename_i h
    exact .inr ⟨h, rfl⟩
  · exact .inl ⟨by omega, rfl⟩

/-- What `pop` answers (10_state.md R29). -/
theorem pop_cases (s : State) :
    (s.sp.val = 0 ∧ pop s = .error .stackUnderflow) ∨
    (∃ h : 0 < s.sp.val, pop s = .ok (s.stack[s.sp.val - 1], { s with sp := ⟨s.sp.val - 1, by omega⟩ })) := by
  unfold pop
  split
  · rename_i h
    exact .inr ⟨h, rfl⟩
  · exact .inl ⟨by omega, rfl⟩

/-! ### The key set -/

/-- What `keyIsDown` answers (10_state.md R31). -/
theorem keyIsDown_cases (s : State) (i : Byte) :
    (15 < i.toNat ∧ keyIsDown s i = .error .invalidKey) ∨
    (∃ h : i.toNat < 16, keyIsDown s i = .ok s.keys[i.toNat]) := by
  unfold keyIsDown
  split
  · rename_i h
    exact .inr ⟨h, rfl⟩
  · exact .inl ⟨by omega, rfl⟩

/-- `keyIsDown` at a byte that names key k reads that key. -/
theorem keyIsDown_reg (s : State) {i : Byte} {k : Reg} (h : i.toNat = k.val) : keyIsDown s i = .ok s.keys[k] := by
  obtain ⟨k, hk⟩ := k
  have hi : i.toNat < 16 := by omega
  unfold keyIsDown
  rw [dif_pos hi]
  simp only [h, Fin.getElem_fin]

/-- `firstKeyDown` finds nothing exactly when every key is up. -/
theorem firstKeyDown_none_iff (s : State) : firstKeyDown s = none ↔ ∀ k : Reg, s.keys[k] = false := by
  simp [firstKeyDown]

/-- The key it finds is down, and every key below it is up (10_state.md R31). -/
theorem firstKeyDown_some {s : State} {k : Reg} (h : firstKeyDown s = some k) :
    s.keys[k] = true ∧ ∀ j : Reg, j < k → s.keys[j] = false := by
  unfold firstKeyDown at h
  obtain ⟨hk, as, bs, hl, hb⟩ := List.find?_eq_some_iff_append.mp h
  refine ⟨by simpa using hk, fun j hj => ?_⟩
  have hs : (as ++ k :: bs).Pairwise (· < ·) := hl ▸ List.pairwise_lt_finRange 16
  have hm : j ∈ as ++ k :: bs := hl ▸ List.mem_finRange j
  rcases List.mem_append.mp hm with hja | hjb
  · simpa using hb j hja
  · rcases List.mem_cons.mp hjb with rfl | hjb
    · exact absurd hj (lt_irrefl _)
    · have := (List.pairwise_cons.mp (List.pairwise_append.mp hs).2.1).1 j hjb
      exact absurd hj (not_lt.mpr this.le)

/-! ### Checked accessors -/

/-- `getV` reads the register within range and raises `InvalidRegister` beyond it (10_state.md R23). -/
theorem getV_cases (s : State) (i : Nat) :
    (15 < i ∧ getV s i = .error .invalidRegister) ∨ (∃ h : i < 16, getV s i = .ok s.V[i]) := by
  unfold getV
  split
  · rename_i h
    exact .inr ⟨h, rfl⟩
  · exact .inl ⟨by omega, rfl⟩

/-- A pixel set inside the grid reads back, and `getPixel` fails beyond the buffer (10_state.md R35). -/
theorem getPixel_setPixel (f : FrameBuffer) (x y : Nat) (v : Bool) (h : pixelIndex x y < 2048) :
    (setPixel f x y v).bind (fun g => getPixel g x y) = some v := by
  simp [setPixel, getPixel, h]

theorem getPixel_none {f : FrameBuffer} {x y : Nat} (h : 2048 ≤ pixelIndex x y) : getPixel f x y = none := by
  simp [getPixel, h]

/-! ### Fetch -/

/-- What `fetch` answers (30_encoding.md R80, 60_exceptions.md R232). -/
theorem fetch_cases (s : State) :
    (0xFFF ≤ s.pc.toNat ∧ fetch s = .error .invalidAddress) ∨
    (s.pc.toNat ≤ 0xFFE ∧
      fetch s = .ok (opcodeOfBytes (s.mem.read s.pc.toNat) (s.mem.read (s.pc.toNat + 1)))) := by
  unfold fetch memSize
  split
  · exact .inr ⟨by omega, rfl⟩
  · exact .inl ⟨by omega, rfl⟩

/-- The fetch is the two-byte `memRead` at pc, composed big-endian (30_encoding.md R80). -/
theorem fetch_eq_memRead (s : State) :
    (fetch s).map bytesOfOpcode = memRead s.mem s.pc.toNat 2 := by
  unfold fetch memRead
  split
  · simp [Except.map, bytesOfOpcode_opcodeOfBytes, List.range_succ]
  · rfl

end Sys2Proof.Machine
end

