-- ==== Sys2Proof/Laws/Step.lean ====
section
/-! SUPPORT. What a step can do, said once: the inversion lemmas of `step` and of `run`. -/

namespace Sys2Proof.Machine

@[simp] theorem raise_eq (e : Fault) : raise e = .fault e := rfl

/-- Everything a step can do (30_encoding.md R80): the fetch fails, the opcode has no row, or the step is `exec` of the
decoded instruction. -/
theorem step_cases (s : State) :
    (0xFFF ≤ s.pc.toNat ∧ step s = .fault .invalidAddress) ∨
    (s.pc.toNat ≤ 0xFFE ∧ ∃ op, op = opcodeOfBytes (s.mem.read s.pc.toNat) (s.mem.read (s.pc.toNat + 1)) ∧
      ((∃ r, decode op = .error r ∧ step s = .fault (.invalidInstruction s.pc op)) ∨
       (∃ i, decode op = .ok i ∧ step s = exec i s))) := by
  rcases fetch_cases s with ⟨hpc, hf⟩ | ⟨hpc, hf⟩
  · exact .inl ⟨hpc, by simp [step, hf]⟩
  · refine .inr ⟨hpc, _, rfl, ?_⟩
    cases hd : decode (opcodeOfBytes (s.mem.read s.pc.toNat) (s.mem.read (s.pc.toNat + 1))) with
    | error r => exact .inl ⟨r, rfl, by simp [step, hf, hd]⟩
    | ok i => exact .inr ⟨i, rfl, by simp [step, hf, hd]⟩

/-- A step that answers a next state fetched at pc <= 0xFFE and ran a decoded instruction. -/
theorem step_next {s t : State} (h : step s = .next t) :
    s.pc.toNat ≤ 0xFFE ∧ ∃ i,
      decode (opcodeOfBytes (s.mem.read s.pc.toNat) (s.mem.read (s.pc.toNat + 1))) = .ok i ∧ exec i s = .next t := by
  rcases step_cases s with ⟨-, hs⟩ | ⟨hpc, op, rfl, ⟨r, -, hs⟩ | ⟨i, hd, hs⟩⟩
  · rw [hs] at h; cases h
  · rw [hs] at h; cases h
  · exact ⟨hpc, i, hd, hs ▸ h⟩

@[simp] theorem run_zero (s : State) : run 0 s = (s, .ok) := rfl

theorem run_succ_next {s t : State} (n : Nat) (h : step s = .next t) : run (n + 1) s = run n t := by
  simp [run, h]

theorem run_succ_fault {s : State} {e : Fault} (n : Nat) (h : step s = .fault e) : run (n + 1) s = (s, .err e) := by
  simp [run, h]

/-! ### The host's run of a core -/

theorem coreRun_next (M : Host.Core) {s t : M.State} (n : Nat) (h : M.step s = .next t) :
    M.run (n + 1) s = M.run n t := by simp [Host.Core.run, h]

theorem coreRun_fault (M : Host.Core) {s : M.State} {e : M.Fault} (n : Nat) (h : M.step s = .fault e) :
    M.run (n + 1) s = .fault e := by simp [Host.Core.run, h]

theorem coreRun_refused (M : Host.Core) {s : M.State} {r : M.Refusal} (n : Nat) (h : M.step s = .refused r) :
    M.run (n + 1) s = .refused r := by simp [Host.Core.run, h]

end Sys2Proof.Machine
end

