-- ==== Sys2Proof/Laws/Configured.lean ====
section
/-! SUPPORT. The configured machine: that its meanings at the decided values are those of `exec`, and what reset memory
reads as at any font. -/

namespace Sys2Proof.Machine

/-! ### The fields of a fresh state -/

@[simp] theorem freshRegisters_mem (m : Memory) (rng : Nat) : (freshRegisters m rng).mem = m := rfl
@[simp] theorem freshRegisters_rng (m : Memory) (rng : Nat) : (freshRegisters m rng).rng = rng := rfl
@[simp] theorem freshRegisters_V (m : Memory) (rng : Nat) : (freshRegisters m rng).V = State.reset.V := rfl
@[simp] theorem freshRegisters_pc (m : Memory) (rng : Nat) : (freshRegisters m rng).pc = State.reset.pc := rfl
@[simp] theorem freshRegisters_I (m : Memory) (rng : Nat) : (freshRegisters m rng).I = State.reset.I := rfl
@[simp] theorem freshRegisters_stack (m : Memory) (rng : Nat) : (freshRegisters m rng).stack = State.reset.stack := rfl
@[simp] theorem freshRegisters_sp (m : Memory) (rng : Nat) : (freshRegisters m rng).sp = State.reset.sp := rfl
@[simp] theorem freshRegisters_keys (m : Memory) (rng : Nat) : (freshRegisters m rng).keys = State.reset.keys := rfl
@[simp] theorem freshRegisters_DT (m : Memory) (rng : Nat) : (freshRegisters m rng).DT = State.reset.DT := rfl
@[simp] theorem freshRegisters_ST (m : Memory) (rng : Nat) : (freshRegisters m rng).ST = State.reset.ST := rfl
@[simp] theorem freshRegisters_fb (m : Memory) (rng : Nat) : (freshRegisters m rng).fb = State.reset.fb := rfl

/-- At the decided values the configured meaning of every instruction is its meaning. -/
theorem execWith_decided (i : Instr) (s : State) : execWith decidedConfig Config.randByte i s = exec i s := by
  cases i <;> rfl

/-- Everything a step can do at any configuration: the fetch fails, the opcode has no row of the configured table, or the
step is the configured meaning of the decoded instruction. -/
theorem stepWith_cases (cfg : Config) (draws : Nat → Byte) (s : State) :
    (0xFFF ≤ s.pc.toNat ∧ stepWith cfg draws s = .fault .invalidAddress) ∨
    (s.pc.toNat ≤ 0xFFE ∧ ∃ op, op = opcodeOfBytes (s.mem.read s.pc.toNat) (s.mem.read (s.pc.toNat + 1)) ∧
      ((∃ r, decodeWith cfg op = .error r ∧ stepWith cfg draws s = .fault (.invalidInstruction s.pc op)) ∨
       (∃ i, decodeWith cfg op = .ok i ∧ stepWith cfg draws s = execWith cfg draws i s))) := by
  rcases fetch_cases s with ⟨hpc, hf⟩ | ⟨hpc, hf⟩
  · exact .inl ⟨hpc, by simp [stepWith, hf]⟩
  · refine .inr ⟨hpc, _, rfl, ?_⟩
    cases hd : decodeWith cfg (opcodeOfBytes (s.mem.read s.pc.toNat) (s.mem.read (s.pc.toNat + 1))) with
    | error r => exact .inl ⟨r, rfl, by simp [stepWith, hf, hd]⟩
    | ok i => exact .inr ⟨i, rfl, by simp [stepWith, hf, hd]⟩

/-- I after a bulk transfer, as a number: 16-bit arithmetic under `BULK_I = INCREMENT`. -/
theorem bulkIndex_toNat (cfg : Config) (x : Reg) (i : Word) :
    (bulkIndex cfg x i).toNat = if cfg.bulkI = .increment then (i.toNat + x.val + 1) % 65536 else i.toNat := by
  have := x.isLt
  unfold bulkIndex
  cases cfg.bulkI with
  | unchanged => simp
  | increment =>
    simp [BitVec.toNat_add]
    omega

/-- Reset memory at any font is canonical. -/
theorem resetMemory_wf (cfg : Config) : (resetMemory cfg).wf = true :=
  Memory.wf_writeAll (m := []) rfl _ _ (by rw [List.length_map, List.length_range]; decide)

/-- Outside the glyph table the reset contents are 0. -/
theorem resetByte_outside (cfg : Config) {a : Nat} (h : a < 0x50 ∨ 0x9F < a) : resetByte cfg a = 0 :=
  dif_neg (by unfold fontBase; omega)

/-- Reset memory at any font reads as the reset contents at that font. -/
theorem resetMemory_read (cfg : Config) (a : Nat) : (resetMemory cfg).read a = resetByte cfg a := by
  by_cases h : fontBase ≤ a ∧ a < fontBase + 80
  · obtain ⟨k, rfl⟩ := Nat.exists_eq_add_of_le h.1
    have hk : k < ((List.range 80).map fun k => resetByte cfg (fontBase + k)).length := by
      rw [List.length_map, List.length_range]; omega
    refine (Memory.read_writeAll_inside (m := []) rfl fontBase _ ?_ k hk).trans (by simp)
    rw [List.length_map, List.length_range]; decide
  · have hout : a < 0x50 ∨ 0x9F < a := by unfold fontBase at h; omega
    unfold resetMemory
    rw [Memory.read_writeAll_outside _ _ _ (by rw [List.length_map, List.length_range]; unfold fontBase; omega),
      resetByte_outside cfg hout]
    exact resetByte_outside decidedConfig hout

end Sys2Proof.Machine
end

