-- ==== Sys2Proof/Laws/Display.lean ====
section
/-! SUPPORT. What the drawing loop does, pixel by pixel: each covered pixel is inverted, every other is left alone, and
the collision is noted exactly when a covered pixel was on (44_display.md R171 to R173). -/

namespace Sys2Proof.Machine

/-- Pixel j lies under one of the first k columns of a sprite row at (x0, py), where the row's bit is set. -/
def colsUnder (x0 py : Nat) (row : Byte) (k j : Nat) : Bool :=
  decide (j / 64 = py) && (decide (x0 ≤ j % 64 ∧ j % 64 < x0 + k) && spriteBit row (j % 64 - x0))

/-- Pixel j lies under a set bit of the rows, the first of which is at row py of the screen. -/
def rowsUnder (x0 : Nat) : Nat → List Byte → Nat → Bool
  | _, [], _ => false
  | py, row :: rows, j => colsUnder x0 py row 8 j || rowsUnder x0 (py + 1) rows j

theorem plot_fb (px py : Nat) (on : Bool) (c : Canvas) (j : Nat) (hj : j < 2048) :
    (plot px py on c).fb[j] = (c.fb[j] ^^ (on && decide (j % 64 = px ∧ j / 64 = py))) := by
  unfold plot
  split
  · rename_i h
    cases on with
    | false => simp
    | true =>
      simp only [if_true, Bool.true_and, Vector.getElem_set, pixelIndex]
      by_cases hp : py * 64 + px = j
      · subst hp
        have : (py * 64 + px) % 64 = px ∧ (py * 64 + px) / 64 = py := by omega
        simp [this]
      · have : ¬(j % 64 = px ∧ j / 64 = py) := by omega
        simp [hp, this]
  · have : ¬(j % 64 = px ∧ j / 64 = py) := by omega
    simp [this]

theorem plot_hit (px py : Nat) (on : Bool) (c : Canvas) :
    (plot px py on c).hit = true ↔
      c.hit = true ∨ ∃ (j : Nat) (h : j < 2048), on = true ∧ j % 64 = px ∧ j / 64 = py ∧ c.fb[j] = true := by
  unfold plot
  split
  · rename_i h
    cases on with
    | false => simp
    | true =>
      simp only [if_true, Bool.or_eq_true, true_and]
      refine or_congr Iff.rfl ⟨fun hb => ⟨pixelIndex px py, ?_, ?_, ?_, hb⟩, ?_⟩
      · unfold pixelIndex; omega
      · unfold pixelIndex; omega
      · unfold pixelIndex; omega
      · rintro ⟨j, hj, rfl, rfl, hb⟩
        have : pixelIndex (j % 64) (j / 64) = j := by unfold pixelIndex; omega
        simpa [this] using hb
  · constructor
    · exact .inl
    · rintro (hc | ⟨j, hj, -, hx, hy, -⟩)
      · exact hc
      · omega

/-- The columns drawn so far of one row. -/
theorem drawCols_spec (x0 py : Nat) (row : Byte) (c : Canvas) (k : Nat) :
    let d := (List.range k).foldl (fun acc col => plot (x0 + col) py (spriteBit row col) acc) c
    (∀ (j : Nat) (hj : j < 2048), d.fb[j] = (c.fb[j] ^^ colsUnder x0 py row k j)) ∧
    (d.hit = true ↔ c.hit = true ∨ ∃ (j : Nat) (hj : j < 2048), colsUnder x0 py row k j = true ∧ c.fb[j] = true) := by
  induction k with
  | zero =>
    have h0 : ∀ j, colsUnder x0 py row 0 j = false := fun j => by simp [colsUnder]
    simp [h0]
  | succ k ih =>
    obtain ⟨ihf, ihh⟩ := ih
    simp only [List.range_succ, List.foldl_append, List.foldl_cons, List.foldl_nil]
    have hsplit : ∀ j, colsUnder x0 py row (k + 1) j =
        (colsUnder x0 py row k j || (spriteBit row k && decide (j % 64 = x0 + k ∧ j / 64 = py))) := fun j => by
      unfold colsUnder
      by_cases hy : j / 64 = py
      · by_cases hx : j % 64 = x0 + k
        · simp [hy, hx]
        · have : (x0 ≤ j % 64 ∧ j % 64 < x0 + (k + 1)) ↔ (x0 ≤ j % 64 ∧ j % 64 < x0 + k) := by omega
          simp [hy, hx, this]
      · simp [hy]
    have hdisj : ∀ j, j % 64 = x0 + k → colsUnder x0 py row k j = false := fun j hx => by
      have : ¬(x0 ≤ j % 64 ∧ j % 64 < x0 + k) := by omega
      simp [colsUnder, this]
    refine ⟨fun j hj => ?_, ?_⟩
    · rw [plot_fb _ _ _ _ _ hj, ihf j hj, hsplit]
      by_cases hx : j % 64 = x0 + k
      · simp [hdisj j hx]
      · simp [hx]
    · rw [plot_hit, ihh, or_assoc]
      refine or_congr Iff.rfl ⟨?_, ?_⟩
      · rintro (⟨j, hj, hc, hb⟩ | ⟨j, hj, hon, hx, hy, hb⟩)
        · exact ⟨j, hj, by simp [hsplit, hc], hb⟩
        · refine ⟨j, hj, by simp [hsplit, hon, hx, hy], ?_⟩
          simpa [ihf j hj, hdisj j hx] using hb
      · rintro ⟨j, hj, hc, hb⟩
        rw [hsplit, Bool.or_eq_true] at hc
        rcases hc with hc | hc
        · exact .inl ⟨j, hj, hc, hb⟩
        · simp only [Bool.and_eq_true, decide_eq_true_eq] at hc
          exact .inr ⟨j, hj, hc.1, hc.2.1, hc.2.2, by simpa [ihf j hj, hdisj j hc.2.1] using hb⟩

theorem rowsUnder_below {x0 py : Nat} {rows : List Byte} {j : Nat} (h : j / 64 < py) :
    rowsUnder x0 py rows j = false := by
  induction rows generalizing py with
  | nil => rfl
  | cons row rows ih => simp [rowsUnder, colsUnder, show j / 64 ≠ py by omega, ih (show j / 64 < py + 1 by omega)]

/-- The whole sprite (44_display.md R173). -/
theorem drawRows_spec (x0 py : Nat) (rows : List Byte) (c : Canvas) :
    (∀ (j : Nat) (hj : j < 2048), (drawRows x0 py rows c).fb[j] = (c.fb[j] ^^ rowsUnder x0 py rows j)) ∧
    ((drawRows x0 py rows c).hit = true ↔
      c.hit = true ∨ ∃ (j : Nat) (hj : j < 2048), rowsUnder x0 py rows j = true ∧ c.fb[j] = true) := by
  induction rows generalizing py c with
  | nil => simp [drawRows, rowsUnder]
  | cons row rows ih =>
    obtain ⟨hf, hh⟩ := drawCols_spec x0 py row c 8
    obtain ⟨ihf, ihh⟩ := ih (py + 1) (drawRow x0 py row c)
    have hoff : ∀ j, rowsUnder x0 (py + 1) rows j = true → colsUnder x0 py row 8 j = false := fun j hj => by
      by_cases hy : j / 64 = py
      · rw [rowsUnder_below (by omega)] at hj
        exact absurd hj (by decide)
      · simp [colsUnder, hy]
    refine ⟨fun j hj => ?_, ?_⟩
    · have h1 := ihf j hj
      have h2 : (drawRow x0 py row c).fb[j] = _ := hf j hj
      simp only [drawRows, rowsUnder, h1, h2]
      cases hr : rowsUnder x0 (py + 1) rows j with
      | false => simp
      | true => simp [hoff j hr]
    · simp only [drawRows, rowsUnder]
      rw [ihh, show (drawRow x0 py row c).hit = true ↔ _ from hh, or_assoc]
      refine or_congr Iff.rfl ⟨?_, ?_⟩
      · rintro (⟨j, hj, hc, hb⟩ | ⟨j, hj, hr, hb⟩)
        · exact ⟨j, hj, by simp [hc], hb⟩
        · refine ⟨j, hj, by simp [hr], ?_⟩
          have h2 : (drawRow x0 py row c).fb[j] = _ := hf j hj
          simpa [h2, hoff j hr] using hb
      · rintro ⟨j, hj, hc, hb⟩
        cases hr : rowsUnder x0 (py + 1) rows j with
        | false => exact .inl ⟨j, hj, by simpa [hr] using hc, hb⟩
        | true =>
          refine .inr ⟨j, hj, hr, ?_⟩
          have h2 : (drawRow x0 py row c).fb[j] = _ := hf j hj
          simpa [h2, hoff j hr] using hb

/-- Which pixels the rows cover, by row and column (44_display.md R171, R172). -/
theorem rowsUnder_iff {x0 py : Nat} {rows : List Byte} {j : Nat} :
    rowsUnder x0 py rows j = true ↔ ∃ (r : Nat) (hr : r < rows.length),
      j / 64 = py + r ∧ x0 ≤ j % 64 ∧ j % 64 < x0 + 8 ∧ spriteBit rows[r] (j % 64 - x0) = true := by
  induction rows generalizing py with
  | nil => simp [rowsUnder]
  | cons row rows ih =>
    simp only [rowsUnder, Bool.or_eq_true, ih, colsUnder, Bool.and_eq_true, decide_eq_true_eq]
    constructor
    · rintro (⟨hy, ⟨h1, h2⟩, hb⟩ | ⟨r, hr, hy, h1, h2, hb⟩)
      · exact ⟨0, by simp, by omega, h1, h2, hb⟩
      · exact ⟨r + 1, by simpa using hr, by omega, h1, h2, by simpa using hb⟩
    · rintro ⟨r, hr, hy, h1, h2, hb⟩
      cases r with
      | zero => exact .inl ⟨by omega, ⟨h1, h2⟩, by simpa using hb⟩
      | succ r => exact .inr ⟨r, by simpa using hr, by omega, h1, h2, by simpa using hb⟩

end Sys2Proof.Machine
end

