-- ==== Sys2Proof/Laws/PerInstr.lean ====
section
/-! SUPPORT. Per instruction: its word fits its own row of the decode table, and that row reads back the instruction with
every operand (30_encoding.md R82, R84). -/

namespace Sys2Proof.Laws.RowFits

/-- The instruction's row is in the table, its word fits the row, and the row's operand fields give it back. -/
def Statement (i : Instr) : Prop :=
  ∃ d ∈ decodeTable Machine.decidedConfig, d.op = i.op ∧ d.fits (encode i) = true ∧ d.op.instr (encode i) = i

theorem cls : Statement .cls := by
  exact ⟨⟨.cls, 0x00E0#16, 0xFFFF#16⟩, by decide, rfl, by decide, rfl⟩

theorem ret : Statement .ret := by
  exact ⟨⟨.ret, 0x00EE#16, 0xFFFF#16⟩, by decide, rfl, by decide, rfl⟩

theorem sys (nnn : Addr12) : Statement (.sys nnn) := by
  refine ⟨⟨.sys, 0x0000#16, 0xF000#16⟩, by decide, rfl, ?_, by simp [Op.instr, encode]⟩
  rw [fits_F000, encode, encAddr_toNat]
  have := nnn.isLt
  simp only [BitVec.ofNat_eq_ofNat, BitVec.toNat_ofNat, Nat.reducePow, Nat.reduceMod]
  omega

theorem jp (nnn : Addr12) : Statement (.jp nnn) := by
  refine ⟨⟨.jp, 0x1000#16, 0xF000#16⟩, by decide, rfl, ?_, by simp [Op.instr, encode]⟩
  rw [fits_F000, encode, encAddr_toNat]
  have := nnn.isLt
  simp only [BitVec.ofNat_eq_ofNat, BitVec.toNat_ofNat, Nat.reducePow, Nat.reduceMod]
  omega

theorem call (nnn : Addr12) : Statement (.call nnn) := by
  refine ⟨⟨.call, 0x2000#16, 0xF000#16⟩, by decide, rfl, ?_, by simp [Op.instr, encode]⟩
  rw [fits_F000, encode, encAddr_toNat]
  have := nnn.isLt
  simp only [BitVec.ofNat_eq_ofNat, BitVec.toNat_ofNat, Nat.reducePow, Nat.reduceMod]
  omega

theorem seImm (x : Reg) (kk : Byte) : Statement (.seImm x kk) := by
  refine ⟨⟨.seImm, 0x3000#16, 0xF000#16⟩, by decide, rfl, ?_, by simp [Op.instr, encode]⟩
  rw [fits_F000, encode, encRegImm_toNat]
  have := kk.isLt
  simp only [BitVec.ofNat_eq_ofNat, BitVec.toNat_ofNat, Nat.reducePow, Nat.reduceMod]
  omega

theorem sneImm (x : Reg) (kk : Byte) : Statement (.sneImm x kk) := by
  refine ⟨⟨.sneImm, 0x4000#16, 0xF000#16⟩, by decide, rfl, ?_, by simp [Op.instr, encode]⟩
  rw [fits_F000, encode, encRegImm_toNat]
  have := kk.isLt
  simp only [BitVec.ofNat_eq_ofNat, BitVec.toNat_ofNat, Nat.reducePow, Nat.reduceMod]
  omega

theorem seReg (x : Reg) (y : Reg) : Statement (.seReg x y) := by
  refine ⟨⟨.seReg, 0x5000#16, 0xF00F#16⟩, by decide, rfl, ?_, by simp [Op.instr, encode]⟩
  rw [fits_F00F, encode, encRegReg_toNat]
  simp only [BitVec.ofNat_eq_ofNat, BitVec.toNat_ofNat, Nat.reducePow, Nat.reduceMod]
  omega

theorem ldImm (x : Reg) (kk : Byte) : Statement (.ldImm x kk) := by
  refine ⟨⟨.ldImm, 0x6000#16, 0xF000#16⟩, by decide, rfl, ?_, by simp [Op.instr, encode]⟩
  rw [fits_F000, encode, encRegImm_toNat]
  have := kk.isLt
  simp only [BitVec.ofNat_eq_ofNat, BitVec.toNat_ofNat, Nat.reducePow, Nat.reduceMod]
  omega

theorem addImm (x : Reg) (kk : Byte) : Statement (.addImm x kk) := by
  refine ⟨⟨.addImm, 0x7000#16, 0xF000#16⟩, by decide, rfl, ?_, by simp [Op.instr, encode]⟩
  rw [fits_F000, encode, encRegImm_toNat]
  have := kk.isLt
  simp only [BitVec.ofNat_eq_ofNat, BitVec.toNat_ofNat, Nat.reducePow, Nat.reduceMod]
  omega

theorem ldReg (x : Reg) (y : Reg) : Statement (.ldReg x y) := by
  refine ⟨⟨.ldReg, 0x8000#16, 0xF00F#16⟩, by decide, rfl, ?_, by simp [Op.instr, encode]⟩
  rw [fits_F00F, encode, encRegReg_toNat]
  simp only [BitVec.ofNat_eq_ofNat, BitVec.toNat_ofNat, Nat.reducePow, Nat.reduceMod]
  omega

theorem orReg (x : Reg) (y : Reg) : Statement (.orReg x y) := by
  refine ⟨⟨.orReg, 0x8001#16, 0xF00F#16⟩, by decide, rfl, ?_, by simp [Op.instr, encode]⟩
  rw [fits_F00F, encode, encRegReg_toNat]
  simp only [BitVec.ofNat_eq_ofNat, BitVec.toNat_ofNat, Nat.reducePow, Nat.reduceMod]
  omega

theorem andReg (x : Reg) (y : Reg) : Statement (.andReg x y) := by
  refine ⟨⟨.andReg, 0x8002#16, 0xF00F#16⟩, by decide, rfl, ?_, by simp [Op.instr, encode]⟩
  rw [fits_F00F, encode, encRegReg_toNat]
  simp only [BitVec.ofNat_eq_ofNat, BitVec.toNat_ofNat, Nat.reducePow, Nat.reduceMod]
  omega

theorem xorReg (x : Reg) (y : Reg) : Statement (.xorReg x y) := by
  refine ⟨⟨.xorReg, 0x8003#16, 0xF00F#16⟩, by decide, rfl, ?_, by simp [Op.instr, encode]⟩
  rw [fits_F00F, encode, encRegReg_toNat]
  simp only [BitVec.ofNat_eq_ofNat, BitVec.toNat_ofNat, Nat.reducePow, Nat.reduceMod]
  omega

theorem addReg (x : Reg) (y : Reg) : Statement (.addReg x y) := by
  refine ⟨⟨.addReg, 0x8004#16, 0xF00F#16⟩, by decide, rfl, ?_, by simp [Op.instr, encode]⟩
  rw [fits_F00F, encode, encRegReg_toNat]
  simp only [BitVec.ofNat_eq_ofNat, BitVec.toNat_ofNat, Nat.reducePow, Nat.reduceMod]
  omega

theorem sub (x : Reg) (y : Reg) : Statement (.sub x y) := by
  refine ⟨⟨.sub, 0x8005#16, 0xF00F#16⟩, by decide, rfl, ?_, by simp [Op.instr, encode]⟩
  rw [fits_F00F, encode, encRegReg_toNat]
  simp only [BitVec.ofNat_eq_ofNat, BitVec.toNat_ofNat, Nat.reducePow, Nat.reduceMod]
  omega

theorem shr (x : Reg) (y : Reg) : Statement (.shr x y) := by
  refine ⟨⟨.shr, 0x8006#16, 0xF00F#16⟩, by decide, rfl, ?_, by simp [Op.instr, encode]⟩
  rw [fits_F00F, encode, encRegReg_toNat]
  simp only [BitVec.ofNat_eq_ofNat, BitVec.toNat_ofNat, Nat.reducePow, Nat.reduceMod]
  omega

theorem subn (x : Reg) (y : Reg) : Statement (.subn x y) := by
  refine ⟨⟨.subn, 0x8007#16, 0xF00F#16⟩, by decide, rfl, ?_, by simp [Op.instr, encode]⟩
  rw [fits_F00F, encode, encRegReg_toNat]
  simp only [BitVec.ofNat_eq_ofNat, BitVec.toNat_ofNat, Nat.reducePow, Nat.reduceMod]
  omega

theorem shl (x : Reg) (y : Reg) : Statement (.shl x y) := by
  refine ⟨⟨.shl, 0x800E#16, 0xF00F#16⟩, by decide, rfl, ?_, by simp [Op.instr, encode]⟩
  rw [fits_F00F, encode, encRegReg_toNat]
  simp only [BitVec.ofNat_eq_ofNat, BitVec.toNat_ofNat, Nat.reducePow, Nat.reduceMod]
  omega

theorem sneReg (x : Reg) (y : Reg) : Statement (.sneReg x y) := by
  refine ⟨⟨.sneReg, 0x9000#16, 0xF00F#16⟩, by decide, rfl, ?_, by simp [Op.instr, encode]⟩
  rw [fits_F00F, encode, encRegReg_toNat]
  simp only [BitVec.ofNat_eq_ofNat, BitVec.toNat_ofNat, Nat.reducePow, Nat.reduceMod]
  omega

theorem ldI (nnn : Addr12) : Statement (.ldI nnn) := by
  refine ⟨⟨.ldI, 0xA000#16, 0xF000#16⟩, by decide, rfl, ?_, by simp [Op.instr, encode]⟩
  rw [fits_F000, encode, encAddr_toNat]
  have := nnn.isLt
  simp only [BitVec.ofNat_eq_ofNat, BitVec.toNat_ofNat, Nat.reducePow, Nat.reduceMod]
  omega

theorem jpV0 (nnn : Addr12) : Statement (.jpV0 nnn) := by
  refine ⟨⟨.jpV0, 0xB000#16, 0xF000#16⟩, by decide, rfl, ?_, by simp [Op.instr, encode]⟩
  rw [fits_F000, encode, encAddr_toNat]
  have := nnn.isLt
  simp only [BitVec.ofNat_eq_ofNat, BitVec.toNat_ofNat, Nat.reducePow, Nat.reduceMod]
  omega

theorem rnd (x : Reg) (kk : Byte) : Statement (.rnd x kk) := by
  refine ⟨⟨.rnd, 0xC000#16, 0xF000#16⟩, by decide, rfl, ?_, by simp [Op.instr, encode]⟩
  rw [fits_F000, encode, encRegImm_toNat]
  have := kk.isLt
  simp only [BitVec.ofNat_eq_ofNat, BitVec.toNat_ofNat, Nat.reducePow, Nat.reduceMod]
  omega

theorem drw (x : Reg) (y : Reg) (n : Height) : Statement (.drw x y n) := by
  refine ⟨⟨.drw, 0xD000#16, 0xF000#16⟩, by decide, rfl, ?_, by simp [Op.instr, encode]⟩
  rw [fits_F000, encode, encRegReg_toNat]
  rw [nibble_toNat]
  simp only [BitVec.ofNat_eq_ofNat, BitVec.toNat_ofNat, Nat.reducePow, Nat.reduceMod]
  omega

theorem skp (x : Reg) : Statement (.skp x) := by
  refine ⟨⟨.skp, 0xE09E#16, 0xF0FF#16⟩, by decide, rfl, ?_, by simp [Op.instr, encode]⟩
  rw [fits_F0FF, encode, encReg_toNat]
  simp only [BitVec.ofNat_eq_ofNat, BitVec.toNat_ofNat, Nat.reducePow, Nat.reduceMod]
  omega

theorem sknp (x : Reg) : Statement (.sknp x) := by
  refine ⟨⟨.sknp, 0xE0A1#16, 0xF0FF#16⟩, by decide, rfl, ?_, by simp [Op.instr, encode]⟩
  rw [fits_F0FF, encode, encReg_toNat]
  simp only [BitVec.ofNat_eq_ofNat, BitVec.toNat_ofNat, Nat.reducePow, Nat.reduceMod]
  omega

theorem ldVxDT (x : Reg) : Statement (.ldVxDT x) := by
  refine ⟨⟨.ldVxDT, 0xF007#16, 0xF0FF#16⟩, by decide, rfl, ?_, by simp [Op.instr, encode]⟩
  rw [fits_F0FF, encode, encReg_toNat]
  simp only [BitVec.ofNat_eq_ofNat, BitVec.toNat_ofNat, Nat.reducePow, Nat.reduceMod]
  omega

theorem ldVxK (x : Reg) : Statement (.ldVxK x) := by
  refine ⟨⟨.ldVxK, 0xF00A#16, 0xF0FF#16⟩, by decide, rfl, ?_, by simp [Op.instr, encode]⟩
  rw [fits_F0FF, encode, encReg_toNat]
  simp only [BitVec.ofNat_eq_ofNat, BitVec.toNat_ofNat, Nat.reducePow, Nat.reduceMod]
  omega

theorem ldDTVx (x : Reg) : Statement (.ldDTVx x) := by
  refine ⟨⟨.ldDTVx, 0xF015#16, 0xF0FF#16⟩, by decide, rfl, ?_, by simp [Op.instr, encode]⟩
  rw [fits_F0FF, encode, encReg_toNat]
  simp only [BitVec.ofNat_eq_ofNat, BitVec.toNat_ofNat, Nat.reducePow, Nat.reduceMod]
  omega

theorem ldSTVx (x : Reg) : Statement (.ldSTVx x) := by
  refine ⟨⟨.ldSTVx, 0xF018#16, 0xF0FF#16⟩, by decide, rfl, ?_, by simp [Op.instr, encode]⟩
  rw [fits_F0FF, encode, encReg_toNat]
  simp only [BitVec.ofNat_eq_ofNat, BitVec.toNat_ofNat, Nat.reducePow, Nat.reduceMod]
  omega

theorem addI (x : Reg) : Statement (.addI x) := by
  refine ⟨⟨.addI, 0xF01E#16, 0xF0FF#16⟩, by decide, rfl, ?_, by simp [Op.instr, encode]⟩
  rw [fits_F0FF, encode, encReg_toNat]
  simp only [BitVec.ofNat_eq_ofNat, BitVec.toNat_ofNat, Nat.reducePow, Nat.reduceMod]
  omega

theorem ldF (x : Reg) : Statement (.ldF x) := by
  refine ⟨⟨.ldF, 0xF029#16, 0xF0FF#16⟩, by decide, rfl, ?_, by simp [Op.instr, encode]⟩
  rw [fits_F0FF, encode, encReg_toNat]
  simp only [BitVec.ofNat_eq_ofNat, BitVec.toNat_ofNat, Nat.reducePow, Nat.reduceMod]
  omega

theorem ldB (x : Reg) : Statement (.ldB x) := by
  refine ⟨⟨.ldB, 0xF033#16, 0xF0FF#16⟩, by decide, rfl, ?_, by simp [Op.instr, encode]⟩
  rw [fits_F0FF, encode, encReg_toNat]
  simp only [BitVec.ofNat_eq_ofNat, BitVec.toNat_ofNat, Nat.reducePow, Nat.reduceMod]
  omega

theorem storeRegs (x : Reg) : Statement (.storeRegs x) := by
  refine ⟨⟨.storeRegs, 0xF055#16, 0xF0FF#16⟩, by decide, rfl, ?_, by simp [Op.instr, encode]⟩
  rw [fits_F0FF, encode, encReg_toNat]
  simp only [BitVec.ofNat_eq_ofNat, BitVec.toNat_ofNat, Nat.reducePow, Nat.reduceMod]
  omega

theorem loadRegs (x : Reg) : Statement (.loadRegs x) := by
  refine ⟨⟨.loadRegs, 0xF065#16, 0xF0FF#16⟩, by decide, rfl, ?_, by simp [Op.instr, encode]⟩
  rw [fits_F0FF, encode, encReg_toNat]
  simp only [BitVec.ofNat_eq_ofNat, BitVec.toNat_ofNat, Nat.reducePow, Nat.reduceMod]
  omega

end Sys2Proof.Laws.RowFits
end

