-- ==== Sys2Proof/Tests/Slice0.lean ====
section
/-! SUPPORT. The model's own tests. Expected results come from the spec: the encodings of 30_encoding.md R84, the rules'
examples, and the vectors of 95_test_vectors.md (their ids stand in the comments). The last part shows, for every
statement with hypotheses, a concrete case that meets them all. -/

namespace Sys2Proof.Tests

open Sys2Proof.Machine

/-- The reset state changed by `f`, with the opcode `w` where the next step fetches. -/
def boot (w : Nat) (f : State → State) : State := (f State.reset).withFetchWord 16 w

/-- The answer is a next state with the property. -/
def after (r : Result) (p : State → Bool) : Bool :=
  match r with
  | .next t => p t
  | .fault _ => false
  | .refused _ => false

/-- The answer is this error. -/
def raises (r : Result) (e : Fault) : Bool :=
  match r with
  | .next _ => false
  | .fault e' => e' == e
  | .refused _ => false

/-! ### Well-formedness -/

theorem test_wf_refuses_sys_of_cls : Instr.wf (.sys 0x0E0) = false := by decide
theorem test_wf_refuses_sys_of_ret : Instr.wf (.sys 0x0EE) = false := by decide
theorem test_wf_accepts_sys : Instr.wf (.sys 0x0E1) = true := by decide

/-! ### Decoding: one word per constructor, written from the pattern column of R84 -/

theorem test_decode_flow :
    decode 0x00E0 = .ok .cls ∧ decode 0x00EE = .ok .ret ∧ decode 0x00E1 = .ok (.sys 0x0E1) ∧
    decode 0x1ABC = .ok (.jp 0xABC) ∧ decode 0x2300 = .ok (.call 0x300) ∧ decode 0xB5FF = .ok (.jpV0 0x5FF) := by decide

theorem test_decode_skips :
    decode 0x3A42 = .ok (.seImm 10 0x42) ∧ decode 0x4A42 = .ok (.sneImm 10 0x42) ∧
    decode 0x5120 = .ok (.seReg 1 2) ∧ decode 0x9120 = .ok (.sneReg 1 2) ∧
    decode 0xE19E = .ok (.skp 1) ∧ decode 0xE1A1 = .ok (.sknp 1) := by decide

theorem test_decode_alu :
    decode 0x6A5C = .ok (.ldImm 10 0x5C) ∧ decode 0x7AFF = .ok (.addImm 10 0xFF) ∧ decode 0x8120 = .ok (.ldReg 1 2) ∧
    decode 0x8121 = .ok (.orReg 1 2) ∧ decode 0x8122 = .ok (.andReg 1 2) ∧ decode 0x8123 = .ok (.xorReg 1 2) ∧
    decode 0x8124 = .ok (.addReg 1 2) ∧ decode 0x8125 = .ok (.sub 1 2) ∧ decode 0x8126 = .ok (.shr 1 2) ∧
    decode 0x8127 = .ok (.subn 1 2) ∧ decode 0x812E = .ok (.shl 1 2) := by decide

theorem test_decode_index_random_display :
    decode 0xA123 = .ok (.ldI 0x123) ∧ decode 0xF21E = .ok (.addI 2) ∧ decode 0xC30F = .ok (.rnd 3 0x0F) ∧
    decode 0xD125 = .ok (.drw 1 2 5) := by decide

theorem test_decode_input_timers_memory :
    decode 0xF30A = .ok (.ldVxK 3) ∧ decode 0xF307 = .ok (.ldVxDT 3) ∧ decode 0xF315 = .ok (.ldDTVx 3) ∧
    decode 0xF318 = .ok (.ldSTVx 3) ∧ decode 0xF529 = .ok (.ldF 5) ∧ decode 0xF333 = .ok (.ldB 3) ∧
    decode 0xF255 = .ok (.storeRegs 2) ∧ decode 0xF265 = .ok (.loadRegs 2) := by decide

-- E5 to E10, K7, K10: opcodes with no row.
theorem test_decode_rejects_illegal :
    decode 0x8008 = .error (.noRow 0x8008) ∧ decode 0x800F = .error (.noRow 0x800F) ∧
    decode 0xE000 = .error (.noRow 0xE000) ∧ decode 0xE19F = .error (.noRow 0xE19F) ∧
    decode 0xF0FF = .error (.noRow 0xF0FF) ∧ decode 0x5121 = .error (.noRow 0x5121) ∧
    decode 0x912F = .error (.noRow 0x912F) ∧ decodeBytes [0x60] = .error .tooShort := by decide

-- R8, SKIP_REG_STRICT = false: the low nibble of 5xy_ is not checked.
theorem test_decode_skip_not_strict :
    decodeWith { decidedConfig with skipRegStrict := false } 0x5121 = .ok (.seReg 1 2) := by decide

theorem test_encode_bytes : encodeBytes (.drw 1 2 5) = [0xD1, 0x25] ∧ encodeBytes (.sys 0x234) = [0x02, 0x34] := by decide

theorem test_decode_table_word : decodeTableWord 16 0xF255 = some (.storeRegs 2) ∧ decodeTableWord 16 0x8008 = none := by decide

/-! ### Fetch and flow -/

-- E1: the two bytes at 0xFFE are in memory.
theorem test_fetch_last_word :
    after (step (boot 0x6000 fun s => s.setPc 0xFFE)) (fun t => t.pc == 0x1000) = true := by decide
-- E2, E3: and at 0xFFF they are not.
theorem test_fetch_beyond_memory :
    raises (step (State.reset.setPc 0xFFF)) .invalidAddress = true ∧
    raises (step (State.reset.setPc 0x1000)) .invalidAddress = true := by decide
-- E4: an odd pc is fetched normally.
theorem test_fetch_odd_pc :
    after (step (boot 0x6A5C fun s => s.setPc 0x201)) (fun t => t.V[10] == 0x5C && t.pc == 0x203) = true := by decide
-- E5.
theorem test_illegal_raises : raises (step (boot 0x8008 id)) (.invalidInstruction 0x200 0x8008) = true := by decide

-- F1.
theorem test_sys : after (step (boot 0x0234 id)) (fun t => t.pc == 0x202) = true := by decide
-- F3, F5.
theorem test_ret :
    after (step (boot 0x00EE fun s => { s with stack := s.stack.set 0 0x204, sp := 1 }))
      (fun t => t.pc == 0x206 && t.sp == 0) = true ∧
    after (step (boot 0x00EE fun s => { s with stack := s.stack.set 15 0xFFE, sp := 16 }))
      (fun t => t.pc == 0x1000 && t.sp == 15) = true := by decide
-- F4.
theorem test_ret_underflow : raises (step (boot 0x00EE id)) .stackUnderflow = true := by decide
-- F6.
theorem test_jp : after (step (boot 0x1ABC id)) (fun t => t.pc == 0xABC) = true := by decide
-- F8.
theorem test_call :
    after (step (boot 0x2300 id)) (fun t => t.stack[0] == 0x200 && t.sp == 1 && t.pc == 0x300) = true := by decide
-- F9.
theorem test_call_overflow : raises (step (boot 0x2300 fun s => { s with sp := 16 })) .stackOverflow = true := by decide
-- F11.
theorem test_jpV0_not_truncated :
    after (step (boot 0xBFFF fun s => s.setV 0 0xFF)) (fun t => t.pc == 0x10FE) = true := by decide
-- F12: the x nibble is not a register.
theorem test_jpV0_reads_V0 :
    after (step (boot 0xB5FF fun s => s.setV 5 0x09)) (fun t => t.pc == 0x5FF) = true := by decide

/-! ### Skips -/

-- K1, K2.
theorem test_seImm :
    after (step (boot 0x3A42 fun s => s.setV 10 0x42)) (fun t => t.pc == 0x204) = true ∧
    after (step (boot 0x3A42 fun s => s.setV 10 0x41)) (fun t => t.pc == 0x202) = true := by decide
-- K3, K4.
theorem test_sneImm :
    after (step (boot 0x4A42 fun s => s.setV 10 0x42)) (fun t => t.pc == 0x202) = true ∧
    after (step (boot 0x4A42 fun s => s.setV 10 0x41)) (fun t => t.pc == 0x204) = true := by decide
-- K5, K6.
theorem test_seReg :
    after (step (boot 0x5120 fun s => (s.setV 1 7).setV 2 7)) (fun t => t.pc == 0x204) = true ∧
    after (step (boot 0x5120 fun s => (s.setV 1 7).setV 2 8)) (fun t => t.pc == 0x202) = true := by decide
-- K8, K9.
theorem test_sneReg :
    after (step (boot 0x9120 fun s => (s.setV 1 7).setV 2 8)) (fun t => t.pc == 0x204) = true ∧
    after (step (boot 0x9120 fun s => (s.setV 1 7).setV 2 7)) (fun t => t.pc == 0x202) = true := by decide

/-! ### Arithmetic and logic -/

-- A1.
theorem test_ldImm : after (step (boot 0x6A5C id)) (fun t => t.V[10] == 0x5C && t.pc == 0x202) = true := by decide
-- A2: the wrap is silent.
theorem test_addImm :
    after (step (boot 0x7AFF fun s => (s.setV 10 0x02).setV 15 0x55)) (fun t => t.V[10] == 0x01 && t.V[15] == 0x55) = true := by decide
-- A3.
theorem test_ldReg : after (step (boot 0x8120 fun s => s.setV 2 0x33)) (fun t => t.V[1] == 0x33) = true := by decide
-- A4.
theorem test_or :
    after (step (boot 0x8121 fun s => ((s.setV 1 0xF0).setV 2 0x0F).setV 15 7))
      (fun t => t.V[1] == 0xFF && t.V[15] == 7) = true := by decide
-- A5.
theorem test_and : after (step (boot 0x8122 fun s => (s.setV 1 0xF0).setV 2 0x3C)) (fun t => t.V[1] == 0x30) = true := by decide
-- A6.
theorem test_xor : after (step (boot 0x8123 fun s => (s.setV 1 0xFF).setV 2 0x0F)) (fun t => t.V[1] == 0xF0) = true := by decide
-- A8 (source example S9).
theorem test_addReg_carry :
    after (step (boot 0x8014 fun s => (s.setV 0 0xFF).setV 1 0x01)) (fun t => t.V[0] == 0 && t.V[15] == 1) = true := by decide
-- A11: with x = 0xF the flag overwrites the sum.
theorem test_addReg_into_VF :
    after (step (boot 0x8F14 fun s => (s.setV 15 0x10).setV 1 0x01)) (fun t => t.V[15] == 0) = true := by decide
-- A13.
theorem test_sub_borrow :
    after (step (boot 0x8015 fun s => ((s.setV 0 3).setV 1 5).setV 15 1)) (fun t => t.V[0] == 0xFE && t.V[15] == 0) = true := by decide
-- A14: equal operands do not borrow.
theorem test_sub_equal :
    after (step (boot 0x8015 fun s => (s.setV 0 4).setV 1 4)) (fun t => t.V[0] == 0 && t.V[15] == 1) = true := by decide
-- A15, A16.
theorem test_subn :
    after (step (boot 0x8017 fun s => (s.setV 0 3).setV 1 5)) (fun t => t.V[0] == 2 && t.V[15] == 1) = true ∧
    after (step (boot 0x8017 fun s => (s.setV 0 5).setV 1 3)) (fun t => t.V[0] == 0xFE && t.V[15] == 0) = true := by decide
-- A17, A18: y is ignored.
theorem test_shr :
    after (step (boot 0x8016 fun s => s.setV 0 5)) (fun t => t.V[0] == 2 && t.V[15] == 1) = true ∧
    after (step (boot 0x8016 fun s => (s.setV 0 4).setV 1 0xFF)) (fun t => t.V[0] == 2 && t.V[15] == 0) = true := by decide
-- A19.
theorem test_shl : after (step (boot 0x801E fun s => s.setV 0 0x81)) (fun t => t.V[0] == 2 && t.V[15] == 1) = true := by decide
-- A22.
theorem test_shl_into_VF : after (step (boot 0x8F0E fun s => s.setV 15 0x80)) (fun t => t.V[15] == 1) = true := by decide

/-! ### Index and random -/

-- X1.
theorem test_ldI : after (step (boot 0xA123 id)) (fun t => t.I == 0x123) = true := by decide
-- X2, X3.
theorem test_addI :
    after (step (boot 0xF01E fun s => ((s.setI 0xFFFF).setV 0 1).setV 15 9)) (fun t => t.I == 0 && t.V[15] == 9) = true ∧
    after (step (boot 0xF01E fun s => (s.setI 0x0FFF).setV 0 0x10)) (fun t => t.I == 0x100F) = true := by decide
-- X4: the draw 0xAB.
theorem test_rnd_draw : after (rndWith 0xAB 3 0x0F State.reset) (fun t => t.V[3] == 0x0B && t.pc == 0x202) = true := by decide

/-! ### Display -/

-- L1, at two pixels.
theorem test_cls :
    after (step (boot 0x00E0 fun s => (s.setFb (Vector.replicate 2048 true)).setV 15 3))
      (fun t => t.fb[0] == false && t.fb[77] == false && t.V[15] == 3 && t.pc == 0x202) = true := by decide
-- L2, at the first row and the left edge: glyph 0 drawn at (0, 0).
theorem test_drw_glyph :
    after (step (boot 0xD015 fun s => s.setI 0x50))
      (fun t => t.fb[0] && t.fb[3] && !t.fb[4] && t.fb[64] && !t.fb[65] && t.fb[67] && t.V[15] == 0) = true := by decide +kernel
-- L4: only the last pixel; the rest of the row is clipped.
theorem test_drw_corner :
    after (step (boot 0xD011 fun s =>
        ((s.setMem (s.mem.writeAll 0x300 [0xFF])).setI 0x300).setV 0 63 |>.setV 1 31))
      (fun t => t.fb[2047] && !t.fb[1984] && t.V[15] == 0) = true := by decide +kernel

/-! ### Input and timers -/

-- T1, T2.
theorem test_skp :
    after (step (boot 0xE19E fun s => (s.setV 1 4).setKey 4 true)) (fun t => t.pc == 0x204) = true ∧
    after (step (boot 0xE19E fun s => s.setV 1 4)) (fun t => t.pc == 0x202) = true := by decide
-- T3, T4.
theorem test_sknp :
    after (step (boot 0xE1A1 fun s => (s.setV 1 4).setKey 4 true)) (fun t => t.pc == 0x202) = true ∧
    after (step (boot 0xE1A1 fun s => s.setV 1 4)) (fun t => t.pc == 0x204) = true := by decide
-- T5, T6.
theorem test_invalid_key :
    raises (step (boot 0xE19E fun s => s.setV 1 0x10)) .invalidKey = true ∧
    raises (step (boot 0xE1A1 fun s => s.setV 1 0xFF)) .invalidKey = true := by decide
-- T7.
theorem test_key_wait : after (step (boot 0xF30A id)) (fun t => t.pc == 0x200 && t.V[3] == 0) = true := by decide
-- T8.
theorem test_key_lowest :
    after (step (boot 0xF30A fun s => (s.setKey 9 true).setKey 4 true)) (fun t => t.V[3] == 4 && t.pc == 0x202) = true := by decide
-- T9.
theorem test_ldVxDT : after (step (boot 0xF307 fun s => s.setDT 0x3C)) (fun t => t.V[3] == 0x3C && t.DT == 0x3C) = true := by decide
-- T10.
theorem test_ldDTVx : after (step (boot 0xF315 fun s => s.setV 3 0x3C)) (fun t => t.DT == 0x3C && t.ST == 0) = true := by decide
-- T11.
theorem test_ldSTVx : after (step (boot 0xF318 fun s => s.setV 3 1)) (fun t => t.ST == 1 && t.DT == 0) = true := by decide

/-! ### Memory operations -/

-- M1, M2.
theorem test_ldF :
    after (step (boot 0xF529 fun s => s.setV 5 5)) (fun t => t.I == 0x069) = true ∧
    after (step (boot 0xF529 fun s => s.setV 5 0x0F)) (fun t => t.I == 0x09B) = true := by decide
-- M3, M4.
theorem test_ldF_invalid_digit :
    raises (step (boot 0xF529 fun s => s.setV 5 0x10)) .invalidDigit = true ∧
    raises (step (boot 0xF529 fun s => s.setV 5 200)) .invalidDigit = true := by decide
-- M5.
theorem test_ldB :
    after (step (boot 0xF333 fun s => (s.setV 3 156).setI 0x300))
      (fun t => t.mem.read 0x300 == 1 && t.mem.read 0x301 == 5 && t.mem.read 0x302 == 6 && t.I == 0x300) = true := by decide
-- M8.
theorem test_ldB_beyond : raises (step (boot 0xF333 fun s => s.setI 0xFFE)) .invalidAddress = true := by decide
-- M9.
theorem test_storeRegs :
    after (step (boot 0xF255 fun s => (((s.setV 0 1).setV 1 2).setV 2 3).setI 0x400))
      (fun t => t.mem.read 0x400 == 1 && t.mem.read 0x402 == 3 && t.mem.read 0x403 == 0 && t.I == 0x400) = true := by decide
-- M12.
theorem test_storeRegs_beyond : raises (step (boot 0xFF55 fun s => s.setI 0xFF1)) .invalidAddress = true := by decide
-- M13.
theorem test_loadRegs :
    after (step (boot 0xF265 fun s => ((s.setMem (s.mem.writeAll 0x400 [0x0A, 0x0B, 0x0C])).setI 0x400).setV 3 0x77))
      (fun t => t.V[0] == 0x0A && t.V[2] == 0x0C && t.V[3] == 0x77 && t.I == 0x400) = true := by decide
-- M14: the first font bytes; VF as data.
theorem test_loadRegs_font :
    after (step (boot 0xFF65 fun s => s.setI 0x50)) (fun t => t.V[0] == 0xF0 && t.V[5] == 0x20 && t.V[15] == 0xF0) = true := by decide

/-! ### Memory's form and the host's commands -/

-- Writing what an unlisted address reads as takes the entry away.
theorem test_memory_canonical : Memory.write (Memory.write [] 0x300 7) 0x300 0 = [] ∧ Memory.write [] 0x50 0xF0 = [] := by decide
-- H2.
theorem test_load_oversized : load (List.replicate 3585 0) State.reset = (State.reset, .err .invalidAddress) := by
  unfold load memWrite
  rw [List.length_replicate]
  rfl
-- H6: the first step's effect is kept.
theorem test_run_stops :
    (run 3 (load [0x60, 0x01, 0xFF, 0xFF] State.reset).1).2 = .err (.invalidInstruction 0x202 0xFFFF) ∧
    (run 3 (load [0x60, 0x01, 0xFF, 0xFF] State.reset).1).1.V[0] = 1 := by decide
-- T12, T13.
theorem test_timer_tick :
    (timerTick ((State.reset.setDT 0x3C).setST 1)).DT = 0x3B ∧ (timerTick ((State.reset.setDT 0x3C).setST 1)).ST = 0 ∧
    (timerTick State.reset).DT = 0 := by decide
-- R262: 700 instructions a second, half a second.
theorem test_tick_budget : tickBudget decidedConfig 1 2 = 350 := by decide

/-! ### Witnesses: the hypotheses of the statements can be met, clause by clause, at the edges of their ranges -/

theorem witness_DecodeOfEncodeIsTheInstruction : Instr.wf (.sys 0x0E1) = true ∧ Instr.wf (.drw 15 15 15) = true := by decide
theorem witness_EncodeOfDecodeIsTheOpcode : decode 0x00E1 = .ok (.sys 0x0E1) := by decide
theorem witness_DecodeIsTheFirstMatchingRow :
    (boot 0x8008 fun s => s.setPc 0xFFE).pc.toNat + 2 ≤ 4096 ∧ OpcodeAtPc (boot 0x8008 fun s => s.setPc 0xFFE) 0x8008 ∧
    ∀ d ∈ decodeTable decidedConfig, (0x8008 : Word) &&& d.mask ≠ d.id := by
  refine ⟨by decide, ?_, by decide⟩
  unfold OpcodeAtPc
  decide
theorem witness_OnlySysOverlapsClsAndRet :
    (⟨.cls, 0x00E0, 0xFFFF⟩ : Descriptor) ∈ decodeTable decidedConfig ∧
    (⟨.sys, 0x0000, 0xF000⟩ : Descriptor) ∈ decodeTable decidedConfig ∧
    (⟨.cls, 0x00E0, 0xFFFF⟩ : Descriptor) ≠ ⟨.sys, 0x0000, 0xF000⟩ ∧
    (0x00E0 : Word) &&& 0xFFFF = 0x00E0 ∧ (0x00E0 : Word) &&& 0xF000 = 0x0000 ∧
    (0x0FFF : Word).toNat < 0x1000 := by decide
theorem witness_IllegalOpcodesAreTheListedSpaces :
    (boot 0x5121 fun s => s.setPc 0xFFE).pc.toNat ≤ 0xFFE ∧ OpcodeAtPc (boot 0x5121 fun s => s.setPc 0xFFE) 0x5121 ∧
    IllegalOpcode (0x5121 : Word).toNat := by
  refine ⟨by decide, ?_, ?_⟩
  · unfold OpcodeAtPc
    decide
  · unfold IllegalOpcode
    decide
theorem witness_StepRunsTheDecodedInstruction_next :
    (boot 0x6000 fun s => s.setPc 0xFFE).pc.toNat + 2 ≤ 4096 ∧ OpcodeAtPc (boot 0x6000 fun s => s.setPc 0xFFE) 0x6000 ∧
    decode 0x6000 = .ok (.ldImm 0 0) := by
  refine ⟨by decide, ?_, by decide⟩
  unfold OpcodeAtPc
  decide
theorem witness_StepRunsTheDecodedInstruction_errors :
    4096 < (State.reset.setPc 0xFFF).pc.toNat + 2 ∧ OpcodeAtPc (boot 0x8008 id) 0x8008 ∧
    decode 0x8008 = .error (.noRow 0x8008) ∧ raises (step (State.reset.setPc 0xFFF)) .invalidAddress = true := by
  refine ⟨by decide, ?_, by decide, by decide⟩
  unfold OpcodeAtPc
  decide
theorem witness_StepErrorsComeInOrder :
    OpcodeAtPc (State.reset.setPc 0xFFF) 0x0000 ∧ OpcodeAtPc (boot 0x00EE id) 0x00EE ∧
    errorOf .ret (boot 0x00EE id) = some .stackUnderflow := by
  refine ⟨?_, ?_, by decide⟩ <;> unfold OpcodeAtPc <;> decide
theorem witness_ExecRaisesExactlyTheListedErrors :
    errorOf .ret State.reset = some .stackUnderflow ∧ errorOf (.call 0) { State.reset with sp := 16 } = some .stackOverflow ∧
    errorOf (.skp 0) (State.reset.setV 0 16) = some .invalidKey ∧ errorOf (.skp 0) (State.reset.setV 0 15) = none ∧
    errorOf (.ldF 0) (State.reset.setV 0 16) = some .invalidDigit ∧ errorOf (.ldF 0) (State.reset.setV 0 15) = none ∧
    errorOf (.drw 0 0 0) (State.reset.setI 0x1001) = some .invalidAddress ∧
    errorOf (.drw 0 0 0) (State.reset.setI 0x1000) = none ∧ errorOf (.ldB 0) (State.reset.setI 0xFFE) = some .invalidAddress ∧
    errorOf (.ldB 0) (State.reset.setI 0xFFD) = none ∧ errorOf (.loadRegs 15) (State.reset.setI 0xFF1) = some .invalidAddress ∧
    errorOf (.loadRegs 15) (State.reset.setI 0xFF0) = none := by decide
theorem witness_ExecCompletesWhereNoErrorIsListed :
    errorOf .ret { State.reset with sp := 1 } = none ∧ errorOf (.call 0) { State.reset with sp := 15 } = none := by decide
theorem witness_InvalidRegisterIsNeverRaisedByAStep : 15 < 16 := by decide
theorem witness_InstructionsWriteOnlyTheirParts : exec (.jp 0xABC) State.reset = .next (State.reset.setPc 0xABC) := rfl
theorem witness_RegistersChangeOnlyAsDestinationOrFlag :
    exec (.ldImm 3 7) State.reset = .next (State.reset.setV 3 7).advance ∧
    (State.reset.setV 3 7).advance.V[(3 : Reg)] ≠ State.reset.V[(3 : Reg)] := ⟨rfl, by decide⟩
theorem witness_SysOnlyAdvances : (0x0E1 : Addr12).toNat ≠ 0x0E0 ∧ (0x0E1 : Addr12).toNat ≠ 0x0EE := by decide
theorem witness_SkipsCompareAndMovePc :
    ((0x5121 : Word).toNat / 4096 = 5 ∧ (0x5121 : Word).toNat % 16 ≠ 0) ∧
    ((0x9FFF : Word).toNat / 4096 = 9 ∧ (0x9FFF : Word).toNat % 16 ≠ 0) := by decide
theorem witness_CallPushesItsAddress :
    ({ State.reset with sp := 16 } : State).sp.val = 16 ∧ ({ State.reset with sp := 15 } : State).sp.val < 16 := by decide
theorem witness_ReturnGoesPastTheCall :
    State.reset.sp.val = 0 ∧ ({ State.reset with sp := 1 } : State).sp.val = (0 : Fin 16).val + 1 ∧
    ({ State.reset with sp := 16 } : State).sp.val = (15 : Fin 16).val + 1 := by decide
theorem witness_ReturnResumesAfterItsCall :
    ∃ t, exec (.call 0x300) State.reset = .next t ∧ t.sp.val = 1 ∧ t.stack[0] = 0x200 := ⟨_, rfl, by decide, by decide⟩
theorem witness_PushAndPopAreLastInFirstOut :
    ({ State.reset with sp := 16 } : State).sp.val = 16 ∧ State.reset.sp.val < 16 ∧ State.reset.sp.val = 0 ∧
    ({ State.reset with sp := 16 } : State).sp.val = (15 : Fin 16).val + 1 := by decide
/-- A configuration with every alternative value of R8. -/
def otherConfig : Config :=
  { decidedConfig with
    subVf := .borrow, shiftSrc := .vy, shiftVf := .raw, addiVf := .carry, logicVf := .zero, bulkI := .increment
    skipRegStrict := false
    font := standardFont.set 0 #v[0x3C, 0x66, 0x66, 0x66, 0x3C] }
-- D4, U18: without the strict mask 5121 is the skip; with it, it is illegal.
theorem test_skip_strictness :
    after (stepWith otherConfig (fun _ => 0) (boot 0x5121 id)) (fun t => t.pc == 0x204) = true ∧
    raises (stepWith decidedConfig (fun _ => 0) (boot 0x5121 id)) (.invalidInstruction 0x200 0x5121) = true := by decide
-- R8, R34: another font's glyph 0 in reset memory; the decided font leaves nothing listed.
theorem test_font :
    (resetMemory otherConfig).read 0x50 = 0x3C ∧ (resetMemory otherConfig).read 0x55 = 0x20 ∧
    resetMemory decidedConfig = [] := by decide +kernel
-- R162's example, with the draw 0xB7 as the argument.
theorem test_draw :
    after (stepWith decidedConfig (fun _ => 0xB7) (boot 0xC30F id)) (fun t => t.V[3] == 0x07) = true := by decide
theorem witness_configuration_alternatives :
    otherConfig.subVf = .borrow ∧ otherConfig.shiftSrc = .vy ∧ otherConfig.shiftVf = .raw ∧ otherConfig.addiVf = .carry ∧
    otherConfig.logicVf = .zero ∧ otherConfig.bulkInclusive = true ∧ otherConfig.bulkI = .increment := by decide
theorem witness_RandomByteIsMaskedForEveryDraw : (0x0F : Byte).getLsbD 7 = false := by decide
theorem witness_OnlyAddIndexPassesTwelveBits :
    exec (.ldI 0xFFF) State.reset = .next (State.reset.setI 0xFFF).advance ∧ (State.reset.setI 0xFFF).advance.I ≠ State.reset.I :=
  ⟨rfl, by decide⟩
theorem witness_DrawInvertsExactlyTheCoveredPixels :
    4096 < (State.reset.setI 0xFFF).I.toNat + (2 : Height).val ∧ (State.reset.setI 0xFFF).I.toNat + (1 : Height).val ≤ 4096 ∧
    Covered State.reset.mem 0x50 0 0 5 64 := by
  refine ⟨by decide, by decide, ?_⟩
  unfold Covered
  decide
theorem witness_DrawingTwiceRestoresTheScreen :
    ∃ t, exec (.drw 0 1 5) (State.reset.setI 0x50) = .next t ∧ t.I = (State.reset.setI 0x50).I ∧
      t.V[(0 : Reg)] = State.reset.V[(0 : Reg)] ∧ t.fb[0] ≠ State.reset.fb[0] ∧
      (∀ j : Fin 2048, State.reset.fb[j] = false) :=
  ⟨_, rfl, by decide +kernel, by decide +kernel, by decide +kernel, fun j => by simp [State.reset]⟩
theorem witness_CornerSpriteTouchesOnePixel :
    (State.reset.setI 0x50).I.toNat + (5 : Height).val ≤ 4096 ∧ ((State.reset.setV 0 63).V[(0 : Reg)]).toNat % 64 = 63 ∧
    ((State.reset.setV 1 31).V[(1 : Reg)]).toNat % 32 = 31 := by decide
theorem witness_KeySkipsTestTheKeyLevel :
    15 < ((State.reset.setV 1 16).V[(1 : Reg)]).toNat ∧ ((State.reset.setV 1 15).V[(1 : Reg)]).toNat = (15 : Reg).val := by decide
theorem witness_KeyWaitStoresTheLowestKeyDown :
    (∀ k : Reg, State.reset.keys[k] = false) ∧ (State.reset.setKey 4 true).keys[(4 : Reg)] = true ∧
    (∀ j : Reg, j < 4 → (State.reset.setKey 4 true).keys[j] = false) := by decide
theorem witness_KeyWaitUsesTheWholeBudget :
    OpcodeAtPc (boot 0xF00A id) 0xF00A ∧ (0xF00A : Word).toNat = 0xF00A + (0 : Reg).val * 256 ∧
    (boot 0xF00A id).pc.toNat ≤ 0xFFE ∧ ∀ k : Reg, (boot 0xF00A id).keys[k] = false := by
  refine ⟨?_, by decide, by decide, by decide⟩
  unfold OpcodeAtPc
  decide
theorem witness_GlyphAddressOrInvalidDigit :
    15 < ((State.reset.setV 1 16).V[(1 : Reg)]).toNat ∧ ((State.reset.setV 1 15).V[(1 : Reg)]).toNat ≤ 15 := by decide
theorem witness_BcdStoresThreeDigits :
    4096 < (State.reset.setI 0xFFE).I.toNat + 3 ∧ (State.reset.setI 0xFFD).I.toNat + 3 ≤ 4096 ∧ State.reset.mem.wf = true := by decide
theorem witness_BulkTransfersInOrder :
    4096 < (State.reset.setI 0xFF1).I.toNat + (15 : Reg).val + 1 ∧ (State.reset.setI 0xFF0).I.toNat + (15 : Reg).val + 1 ≤ 4096 ∧
    (State.reset.setI 0xFF0).mem.wf = true := by decide
theorem witness_ByteWrittenReadsBack : (State.reset.mem.wf = true ∧ 4095 < 4096) ∧ 4096 ≤ 4096 := by decide
theorem witness_RangeAccessesAreAllOrNothing :
    0xFFE + 2 ≤ 4096 ∧ 4096 < 0xFFE + 3 ∧ State.reset.mem.wf = true ∧ 0xFFE + ([1, 2] : List Byte).length ≤ 4096 ∧
    4096 < 0xFFE + ([1, 2, 3] : List Byte).length := by decide
theorem witness_CanonicalMemoriesReadingAlikeAreEqual :
    Memory.wf [(0x300, 7)] = true ∧ ∀ a : Nat, a < 4096 → Memory.read [(0x300, 7)] a = Memory.read [(0x300, 7)] a :=
  ⟨by decide, fun _ _ => rfl⟩
/-- A store of the word 0x1ABC at the next instruction's address. -/
def storing : State := boot 0xF155 fun s => ((s.setV 0 0x1A).setV 1 0xBC).setI 0x202
theorem witness_StoredCodeRunsAtTheNextStep :
    storing.mem.wf = true ∧ (∃ t, exec (.storeRegs 1) storing = .next t) ∧ storing.I.toNat = storing.pc.toNat + 2 ∧
    (0x1ABC : Word).toNat = (storing.V[(0 : Reg)]).toNat * 256 + (storing.V[(1 : Reg)]).toNat ∧
    decode 0x1ABC = .ok (.jp 0xABC) :=
  ⟨by decide, ⟨_, rfl⟩, by decide, by decide, by decide⟩
theorem witness_ResetCommandEstablishesTheResetState : State.reset.rng = 0 := rfl
theorem witness_LoadWritesTheImageAndResetsRegisters :
    State.reset.mem.wf = true ∧ 4096 < 0x200 + (List.replicate 3585 (0 : Byte)).length ∧
    0x200 + (List.replicate 3584 (0 : Byte)).length ≤ 4096 := by
  rw [List.length_replicate, List.length_replicate]
  decide
theorem witness_RunIsRepeatedSteps : (run 1 State.reset).2 = .ok := by decide
theorem witness_StepKeepsTheInvariant : State.reset.Inv ∧ ∃ t, step State.reset = .next t :=
  ⟨⟨by decide, by decide, by decide⟩, _, rfl⟩
theorem witness_ReachableStatesMeetTheInvariant : Reachable (command (.keyDown 4) (freshRegisters [] 0)).1 :=
  .after _ _ (.powerOn 0)
theorem witness_EveryConfigurationPointIsAnArgument_points :
    decidedConfig.addiVf = .unchanged ∧ decidedConfig.logicVf = .unchanged ∧ decidedConfig.subVf = .notBorrow ∧
    decidedConfig.shiftSrc = .vx ∧ decidedConfig.shiftVf = .bit ∧ decidedConfig.bulkInclusive = true ∧
    decidedConfig.bulkI = .unchanged ∧ namesConfigurationPoint .cls = false := by decide
-- The exclusive transfer of no register at the end of memory, and the inclusive one of a register beyond it.
theorem witness_EveryConfigurationPointIsAnArgument_bulk :
    0 = (if { decidedConfig with bulkInclusive := false }.bulkInclusive = true then (0 : Reg).val + 1 else (0 : Reg).val) ∧
    1 = (if otherConfig.bulkInclusive = true then (0 : Reg).val + 1 else (0 : Reg).val) ∧
    State.reset.mem.wf = true ∧ (State.reset.setI 0x1000).I.toNat + 0 ≤ 4096 ∧
    4096 < (State.reset.setI 0x1000).I.toNat + 1 := by decide
theorem witness_EveryConfigurationPointIsAnArgument_step :
    (OpcodeAtPc (boot 0x5121 id) 0x5121 ∧ decodeWith otherConfig 0x5121 = .ok (.seReg 1 2) ∧
      decodeWith decidedConfig 0x5121 = .error (.noRow 0x5121) ∧
      (0x5121 : Word).toNat = 0x5000 + (1 : Reg).val * 256 + (2 : Reg).val * 16 + 1) ∧
    (OpcodeAtPc (boot 0x9FFF id) 0x9FFF ∧
      (0x9FFF : Word).toNat = 0x9000 + (15 : Reg).val * 256 + (15 : Reg).val * 16 + 15) ∧
    (boot 0x9FFF id).pc.toNat + 2 ≤ 4096 ∧ 4096 < (State.reset.setPc 0xFFF).pc.toNat + 2 ∧
    ¬ (((0x5120 : Word).toNat / 4096 = 5 ∨ (0x5120 : Word).toNat / 4096 = 9) ∧ (0x5120 : Word).toNat % 16 ≠ 0) := by
  unfold OpcodeAtPc
  decide
theorem witness_EveryConfigurationPointIsAnArgument_run :
    after (stepWith otherConfig (fun _ => 0) State.reset) (fun _ => true) = true ∧
    raises (stepWith otherConfig (fun _ => 0) (State.reset.setPc 0xFFF)) .invalidAddress = true ∧
    State.reset.rng = 0 := by decide
theorem witness_PcNeverWraps :
    State.reset.Inv ∧ OpcodeAtPc State.reset 0x0000 ∧ decode 0x0000 = .ok (.sys 0) ∧ ∃ t, step State.reset = .next t := by
  refine ⟨⟨by decide, by decide, by decide⟩, ?_, by decide, _, rfl⟩
  unfold OpcodeAtPc
  decide

end Sys2Proof.Tests
end

