-- ==== Sys2Proof/Proofs/MemoryBytes.lean ====
section
/-! The one-byte accesses of memory: reading back a written byte, and the fault at and beyond 4096 (20_memory.md R54). -/

namespace Sys2Proof.Machine

/-- A one-byte access inside the address space reads the byte at its address. -/
theorem memRead_byte (m : Memory) {a : Nat} (ha : a < 4096) : memRead m a 1 = .ok [m.read a] :=
  memRead_ok_iff.mpr ⟨ha, rfl⟩

/-- A one-byte write inside the address space succeeds. -/
theorem memWrite_byte (m : Memory) {a : Nat} (ha : a < 4096) (b : Byte) : memWrite m a [b] = .ok (m.write a b) :=
  memWrite_ok_iff.mpr ⟨ha, rfl⟩

/-- Settles O45: below 4096 by the law of a read after a write to the same address of a canonical memory, at and above
4096 by the range check that both accesses make first. -/
theorem byteWrittenReadsBack : Obligations.ByteWrittenReadsBack := by
  intro m a b
  refine ⟨fun hw ha => ⟨m.write a b, memWrite_byte m ha b, ?_⟩, fun ha => ⟨?_, ?_⟩⟩
  · rw [memRead_byte _ ha, Memory.read_write_same hw a b]
  · exact memRead_error_iff.mpr ⟨Nat.lt_succ_of_le ha, rfl⟩
  · exact memWrite_error_iff.mpr ⟨Nat.lt_succ_of_le ha, rfl⟩

end Sys2Proof.Machine
end

