-- ==== Sys2Proof/Proofs/StepCycle.lean ====
section
/-! The cycle of a step read from the bytes at pc: the opcode fetched, then the step of a decoded opcode and of one
without a row (30_encoding.md R80). -/

namespace Sys2Proof.Machine

/-- `OpcodeAtPc` names one word: the two bytes at pc, composed big-endian (20_memory.md R55). -/
theorem opcodeAtPc_iff (s : State) (op : Word) :
    OpcodeAtPc s op ↔ op = opcodeOfBytes (s.mem.read s.pc.toNat) (s.mem.read (s.pc.toNat + 1)) := by
  unfold OpcodeAtPc
  rw [← opcodeOfBytes_toNat, BitVec.toNat_inj]

theorem fetch_of_opcodeAtPc {s : State} {op : Word} (hpc : s.pc.toNat + 2 ≤ 4096) (hop : OpcodeAtPc s op) :
    fetch s = .ok op := by
  rcases fetch_cases s with ⟨hhigh, -⟩ | ⟨-, hf⟩
  · omega
  · rw [hf, (opcodeAtPc_iff s op).mp hop]

theorem fetch_beyond_memory {s : State} (hpc : 4096 < s.pc.toNat + 2) : fetch s = .error .invalidAddress := by
  rcases fetch_cases s with ⟨-, hf⟩ | ⟨hlow, -⟩
  · exact hf
  · omega

theorem step_of_fetch_error {s : State} {e : Fault} (hf : fetch s = .error e) : step s = .fault e := by
  simp [step, hf]

theorem step_of_decode_ok {s : State} {op : Word} {i : Instr} (hf : fetch s = .ok op) (hd : decode op = .ok i) :
    step s = exec i s := by
  simp [step, hf, hd]

theorem step_of_decode_error {s : State} {op : Word} {r : Reject} (hf : fetch s = .ok op)
    (hd : decode op = .error r) : step s = .fault (.invalidInstruction s.pc op) := by
  simp [step, hf, hd]

/-- Settles O7: the opcode at pc is what the fetch answers, and the step follows the decoder's answer to it; RUN at a
step that fails is its law for a fault. -/
theorem stepRunsTheDecodedInstruction : Obligations.StepRunsTheDecodedInstruction := by
  refine ⟨fun s op i hpc hop hd => ?decoded, fun s hpc => ?beyond, fun s op r hpc hop hd => ?illegal,
    fun s e n h => ?failingRun⟩
  case decoded => exact step_of_decode_ok (fetch_of_opcodeAtPc hpc hop) hd
  case beyond => exact step_of_fetch_error (fetch_beyond_memory hpc)
  case illegal => exact step_of_decode_error (fetch_of_opcodeAtPc hpc hop) hd
  case failingRun => exact run_succ_fault n h

end Sys2Proof.Machine
end

