-- ==== Sys2Proof/Proofs/FirstRow.lean ====
section
/-! Decode as the first-match scan of the table (30_encoding.md R85): the row it stops at, by position, and what it
answers when no row matches. -/

namespace Sys2Proof

/-- Row k of the table is `d`, `d` matches the opcode, and no row before k does (30_encoding.md R85). -/
def FirstRow (cfg : Config) (w : Word) (k : Nat) (d : Descriptor) : Prop :=
  (decodeTable cfg)[k]? = some d ∧ w &&& d.mask = d.id ∧
    ∀ (j : Nat) (e : Descriptor), j < k → (decodeTable cfg)[j]? = some e → w &&& e.mask ≠ e.id

/-- The scan of the table stops at the first row that matches. -/
theorem find?_decodeTable_eq_some_iff (cfg : Config) (w : Word) (d : Descriptor) :
    (decodeTable cfg).find? (fun d => d.fits w) = some d ↔ ∃ k, FirstRow cfg w k d := by
  rw [List.find?_eq_some_iff_getElem]
  constructor
  · rintro ⟨hfit, k, hk, rfl, hbefore⟩
    refine ⟨k, List.getElem?_eq_getElem hk, (fits_iff _ w).mp hfit, fun j e hj he hmatch => ?_⟩
    obtain ⟨hlen, rfl⟩ := List.getElem?_eq_some_iff.mp he
    simpa [(fits_iff _ w).mpr hmatch] using hbefore j hj
  · rintro ⟨k, hrow, hmatch, hbefore⟩
    obtain ⟨hk, rfl⟩ := List.getElem?_eq_some_iff.mp hrow
    refine ⟨(fits_iff _ w).mpr hmatch, k, hk, rfl, fun j hj => ?_⟩
    have hmiss := hbefore j _ hj (List.getElem?_eq_getElem (hj.trans hk))
    simpa [← fits_iff] using hmiss

/-- An opcode decodes to the instruction of its first matching row, and to no other. -/
theorem decodeWith_eq_ok_iff (cfg : Config) (w : Word) (i : Instr) :
    decodeWith cfg w = .ok i ↔ ∃ k d, FirstRow cfg w k d ∧ i = d.op.instr w := by
  have hscan : decodeWith cfg w = .ok i ↔
      ∃ d, (decodeTable cfg).find? (fun d => d.fits w) = some d ∧ i = d.op.instr w := by
    unfold decodeWith
    cases (decodeTable cfg).find? (fun d => d.fits w) with
    | none => simp
    | some d => simp [eq_comm]
  simp only [hscan, find?_decodeTable_eq_some_iff]
  exact ⟨fun ⟨d, ⟨k, h⟩, hi⟩ => ⟨k, d, h, hi⟩, fun ⟨k, d, h, hi⟩ => ⟨d, ⟨k, h⟩, hi⟩⟩

/-- An opcode that no row of the table matches is rejected (30_encoding.md R86). -/
theorem decodeWith_of_no_row {cfg : Config} {w : Word} (h : ∀ d ∈ decodeTable cfg, w &&& d.mask ≠ d.id) :
    decodeWith cfg w = .error (.noRow w) := by
  have hnone : (decodeTable cfg).find? (fun d => d.fits w) = none :=
    List.find?_eq_none.mpr fun d hd hfit => h d hd ((fits_iff d w).mp hfit)
  simp [decodeWith, hnone]

end Sys2Proof

namespace Sys2Proof.Machine

/-- Settles O4: the scan stops at the first matching row; an opcode that no row matches is rejected, so the step that
fetched it raises the error of the decoder. -/
theorem decodeIsTheFirstMatchingRow : Obligations.DecodeIsTheFirstMatchingRow := by
  refine ⟨fun w i => ?firstRow, fun s op hpc hop hnone => ?noRow⟩
  case firstRow =>
    simpa only [decode, FirstRow, and_assoc] using decodeWith_eq_ok_iff decidedConfig w i
  case noRow => exact step_of_decode_error (fetch_of_opcodeAtPc hpc hop) (decodeWith_of_no_row hnone)

end Sys2Proof.Machine
end

