-- ==== Sys2Proof/Proofs/DecodeOfEncode.lean ====
section
/-! The word of an instruction decodes to it, for every instruction whose row shares no opcode with another row: all but
CLS, RET and SYS (30_encoding.md R87). -/

namespace Sys2Proof

/-- Two rows that fit one opcode agree on the bits both masks keep. -/
theorem id_and_mask_eq_of_fits {d e : Descriptor} {w : Word} (hd : d.fits w = true) (he : e.fits w = true) :
    d.id &&& e.mask = e.id &&& d.mask := by
  rw [← (fits_iff d w).mp hd, ← (fits_iff e w).mp he]
  ac_rfl

/-- A row of the table other than those of CLS, RET and SYS agrees with no other row on the bits both masks keep (R87). -/
theorem eq_of_id_and_mask_eq : ∀ d ∈ decodeTable Machine.decidedConfig, ∀ e ∈ decodeTable Machine.decidedConfig,
    d.op ∉ [Op.cls, Op.ret, Op.sys] → d.id &&& e.mask = e.id &&& d.mask → e = d := by
  decide

/-- An opcode that fits such a row is decoded by that row, wherever the row stands in the table. -/
theorem decode_of_fits {d : Descriptor} {w : Word} (hmem : d ∈ decodeTable Machine.decidedConfig)
    (hop : d.op ∉ [Op.cls, Op.ret, Op.sys]) (hfit : d.fits w = true) : decode w = .ok (d.op.instr w) := by
  have hfind : (decodeTable Machine.decidedConfig).find? (fun d => d.fits w) = some d := by
    cases hscan : (decodeTable Machine.decidedConfig).find? (fun d => d.fits w) with
    | none => exact absurd hfit (List.find?_eq_none.mp hscan d hmem)
    | some e =>
      have hfit' : e.fits w = true := List.find?_some (p := fun r : Descriptor => r.fits w) hscan
      have hagree := id_and_mask_eq_of_fits hfit hfit'
      rw [eq_of_id_and_mask_eq d hmem e (List.mem_of_find?_eq_some hscan) hop hagree]
  simp only [decode, decodeWith, hfind]

/-- Decode of encode is the instruction, for the instructions of such rows. -/
theorem decode_encode_of_rowFits {i : Instr} (hrow : Laws.RowFits.Statement i) (hop : i.op ∉ [Op.cls, Op.ret, Op.sys]) :
    decode (encode i) = .ok i := by
  obtain ⟨d, hmem, hd, hfit, hinstr⟩ := hrow
  rw [decode_of_fits hmem (hd ▸ hop) hfit, hinstr]

end Sys2Proof
end

