-- ==== Sys2Proof/Proofs/Frames.lean ====
section
/-! Frames of the shared operations: composing them, and what a write of pc and a push leave unchanged. -/

namespace Sys2Proof.Machine

theorem Part.same_trans {p : Part} {s t u : State} (hst : p.same s t) (htu : p.same t u) : p.same s u := by
  cases p
  case mem => exact fun a => (htu a).trans (hst a)
  all_goals exact htu.trans hst

/-- Frames compose: one step after another changes what either may change. -/
theorem Unchanged.trans {but but' : List Part} {s t u : State} (hst : Unchanged but s t) (htu : Unchanged but' t u) :
    Unchanged (but ++ but') s u := by
  intro p hp
  rw [List.mem_append, not_or] at hp
  obtain ⟨hbut, hbut'⟩ := hp
  exact Part.same_trans (hst p hbut) (htu p hbut')

theorem unchanged_setPc (s : State) (w : Word) : Unchanged [.pc] s (s.setPc w) := by
  intro p hp
  cases p
  case pc => simp at hp
  all_goals simp [Part.same]

/-- With 16 entries on the stack, push raises `StackOverflow` (10_state.md R28). -/
theorem push_full {s : State} (hsp : s.sp.val = 16) (v : Word) : push s v = .error .stackOverflow := by
  rcases push_cases s v with ⟨-, hpush⟩ | ⟨hlt, -⟩
  · exact hpush
  · omega

/-- With room on the stack, push writes the entry at the old depth, counts it, and changes nothing else (10_state.md R28). -/
theorem push_room {s : State} (hsp : s.sp.val < 16) (v : Word) :
    ∃ t, push s v = .ok t ∧ t.sp.val = s.sp.val + 1 ∧
      (∀ k : Fin 16, t.stack[k] = if k.val = s.sp.val then v else s.stack[k]) ∧ Unchanged [.stack, .sp] s t := by
  rcases push_cases s v with ⟨hfull, -⟩ | ⟨hlt, hpush⟩
  · omega
  · refine ⟨_, hpush, rfl, fun k => ?entry, fun p hp => ?frame⟩
    case entry => simp [Vector.getElem_set, eq_comm]
    case frame =>
      cases p
      case stack | sp => simp at hp
      all_goals simp [Part.same]

end Sys2Proof.Machine
end

