-- ==== Sys2Proof/Proofs/Flow.lean ====
section
/-! JP, JP V0 and CALL (40_flow.md R102 to R104): their opcodes, their targets as numbers, and what they answer. -/

namespace Sys2Proof.Machine

@[simp] theorem zextAddr_toNat (nnn : Addr12) : (zextAddr nnn).toNat = nnn.toNat :=
  BitVec.toNat_setWidth_of_le (by decide)

@[simp] theorem zextByte_toNat (b : Byte) : (zextByte b).toNat = b.toNat :=
  BitVec.toNat_setWidth_of_le (by decide)

/-- The sum of a 12-bit address and a byte fits in pc: it is not truncated (40_flow.md R104). -/
theorem zextAddr_add_zextByte_toNat (nnn : Addr12) (b : Byte) :
    (zextAddr nnn + zextByte b).toNat = nnn.toNat + b.toNat := by
  have hnnn := nnn.isLt
  have hb := b.isLt
  rw [BitVec.toNat_add_of_lt] <;> simp only [zextAddr_toNat, zextByte_toNat]
  omega

theorem exec_jp (nnn : Addr12) (s : State) : exec (.jp nnn) s = .next (s.setPc (zextAddr nnn)) := rfl

theorem exec_jpV0 (nnn : Addr12) (s : State) :
    exec (.jpV0 nnn) s = .next (s.setPc (zextAddr nnn + zextByte s.V[(0 : Reg)])) := rfl

theorem exec_call (nnn : Addr12) (s : State) : exec (.call nnn) s = execCall nnn s := rfl

theorem exec_call_of_push_error {s : State} {e : Fault} (h : push s s.pc = .error e) (nnn : Addr12) :
    exec (.call nnn) s = .fault e := by
  simp [exec_call, execCall, h]

theorem exec_call_of_push_ok {s t : State} (h : push s s.pc = .ok t) (nnn : Addr12) :
    exec (.call nnn) s = .next (t.setPc (zextAddr nnn)) := by
  simp [exec_call, execCall, h]

theorem hasOpcode_jp (nnn : Addr12) : HasOpcode (.jp nnn) (0x1000 + nnn.toNat) :=
  ⟨encAddr_toNat 0x1 nnn, decode_encode_of_rowFits (Laws.RowFits.jp nnn) (by simp [Instr.op])⟩

theorem hasOpcode_jpV0 (nnn : Addr12) : HasOpcode (.jpV0 nnn) (0xB000 + nnn.toNat) :=
  ⟨encAddr_toNat 0xB nnn, decode_encode_of_rowFits (Laws.RowFits.jpV0 nnn) (by simp [Instr.op])⟩

theorem hasOpcode_call (nnn : Addr12) : HasOpcode (.call nnn) (0x2000 + nnn.toNat) :=
  ⟨encAddr_toNat 0x2 nnn, decode_encode_of_rowFits (Laws.RowFits.call nnn) (by simp [Instr.op])⟩

/-- Settles O17: CALL is a push of its own pc followed by a write of pc, so it overflows where the push does, and its
frame is the two frames composed. -/
theorem callPushesItsAddress : Obligations.CallPushesItsAddress := by
  refine fun nnn s => ⟨hasOpcode_call nnn, fun hsp => ?full, fun hsp => ?room⟩
  case full => exact exec_call_of_push_error (push_full hsp s.pc) nnn
  case room =>
    obtain ⟨t, hpush, hdepth, hentries, hframe⟩ := push_room hsp s.pc
    exact ⟨_, exec_call_of_push_ok hpush nnn, hdepth, zextAddr_toNat nnn, hentries,
      hframe.trans (unchanged_setPc t _)⟩

/-- Settles O16: both jumps are one write of pc, and neither target overflows 16 bits. -/
theorem jumpsSetOnlyPc : Obligations.JumpsSetOnlyPc := by
  refine fun nnn s => ⟨⟨hasOpcode_jp nnn, _, exec_jp nnn s, ?jpTarget, unchanged_setPc s _⟩,
    ⟨hasOpcode_jpV0 nnn, _, exec_jpV0 nnn s, ?jpV0Target, unchanged_setPc s _⟩⟩
  case jpTarget => exact zextAddr_toNat nnn
  case jpV0Target => exact zextAddr_add_zextByte_toNat nnn s.V[(0 : Reg)]

end Sys2Proof.Machine
end

