-- ==== Sys2Proof/Proofs/HighNibble.lean ====
section
/-! The space of an opcode, its high nibble, is that of the row it matches; and the two spaces of the register-register skips,
whose rows ask for a low nibble of 0 (30_encoding.md R84, R88). -/

namespace Sys2Proof

/-- Every row checks the high nibble, whatever else its mask keeps (R84). -/
theorem mask_keeps_highNibble : ∀ d ∈ decodeTable Machine.decidedConfig, d.mask &&& 0xF000#16 = 0xF000#16 := by
  decide

/-- An opcode lies in the space of every row it matches. -/
theorem highNibble_eq_of_match {d : Descriptor} {w : Word} (hmem : d ∈ decodeTable Machine.decidedConfig)
    (hmatch : w &&& d.mask = d.id) : d.id.toNat / 4096 = w.toNat / 4096 := by
  have hand : d.id &&& 0xF000#16 = w &&& 0xF000#16 := by
    rw [← hmatch, BitVec.and_assoc, mask_keeps_highNibble d hmem]
  have hnat : d.id.toNat / 4096 * 4096 = w.toNat / 4096 * 4096 := by
    rw [← and_F000_toNat, hand, and_F000_toNat]
  omega

/-- The rows of the spaces 5 and 9 check the low nibble under the decided `SKIP_REG_STRICT`, and ask for 0 there (R88). -/
theorem row_of_skipReg_space : ∀ d ∈ decodeTable Machine.decidedConfig,
    d.id.toNat / 4096 = 5 ∨ d.id.toNat / 4096 = 9 → d.mask = 0xF00F#16 ∧ d.id.toNat % 16 = 0 := by
  decide

/-- An opcode of the spaces 5 and 9 that matches a row ends in 0. -/
theorem lowNibble_eq_zero_of_match {d : Descriptor} {w : Word} (hmem : d ∈ decodeTable Machine.decidedConfig)
    (hspace : w.toNat / 4096 = 5 ∨ w.toNat / 4096 = 9) (hmatch : w &&& d.mask = d.id) : w.toNat % 16 = 0 := by
  obtain ⟨hmask, hlow⟩ := row_of_skipReg_space d hmem (by rwa [highNibble_eq_of_match hmem hmatch])
  have hid : d.id.toNat = w.toNat / 4096 * 4096 + w.toNat % 16 := by
    rw [← hmatch, hmask, and_F00F_toNat]
  omega

/-- `5xyn` and `9xyn` with n not 0 decode to no instruction (41_skip.md R123, R124). -/
theorem decode_of_lowNibble_ne_zero {w : Word} (hspace : w.toNat / 4096 = 5 ∨ w.toNat / 4096 = 9)
    (hlow : w.toNat % 16 ≠ 0) : decode w = .error (.noRow w) :=
  decodeWith_of_no_row fun _ hmem hmatch => hlow (lowNibble_eq_zero_of_match hmem hspace hmatch)

end Sys2Proof
end

