-- ==== Sys2Proof/Proofs/Skip.lean ====
section
/-! SE and SNE (41_skip.md R120 to R124): their opcodes, and their one effect, a write of pc. -/

namespace Sys2Proof.Machine

theorem unchanged_skipIf (s : State) (c : Bool) : Unchanged [.pc] s (s.skipIf c) := by
  rw [State.skipIf_eq]
  exact unchanged_setPc s _

/-- pc moves by 4 or by 2, in 16 bits (R120). -/
theorem skipIf_pc_toNat (s : State) (c : Bool) :
    (s.skipIf c).pc.toNat = (s.pc.toNat + if c then 4 else 2) % 65536 := by
  cases c <;> simp

/-- An instruction that answers with `skipIf` of a test of `p` completes, and moves pc alone, by 4 or 2 as `p` says. -/
theorem skips_of_exec {i : Instr} {s : State} {c : Bool} {p : Prop} [Decidable p]
    (hexec : exec i s = .next (s.skipIf c)) (hc : c = true ↔ p) :
    ∃ t, exec i s = .next t ∧ Unchanged [.pc] s t ∧ t.pc.toNat = (s.pc.toNat + if p then 4 else 2) % 65536 :=
  ⟨_, hexec, unchanged_skipIf s c, by simp only [skipIf_pc_toNat, hc]⟩

theorem exec_seImm (x : Reg) (kk : Byte) (s : State) :
    exec (.seImm x kk) s = .next (s.skipIf (s.V[x] == kk)) := rfl

theorem exec_sneImm (x : Reg) (kk : Byte) (s : State) :
    exec (.sneImm x kk) s = .next (s.skipIf (s.V[x] != kk)) := rfl

theorem exec_seReg (x y : Reg) (s : State) :
    exec (.seReg x y) s = .next (s.skipIf (s.V[x] == s.V[y])) := rfl

theorem exec_sneReg (x y : Reg) (s : State) :
    exec (.sneReg x y) s = .next (s.skipIf (s.V[x] != s.V[y])) := rfl

theorem hasOpcode_seImm (x : Reg) (kk : Byte) : HasOpcode (.seImm x kk) (0x3000 + x.val * 256 + kk.toNat) :=
  ⟨encRegImm_toNat 0x3 x kk, decode_encode_of_rowFits (Laws.RowFits.seImm x kk) (by simp [Instr.op])⟩

theorem hasOpcode_sneImm (x : Reg) (kk : Byte) : HasOpcode (.sneImm x kk) (0x4000 + x.val * 256 + kk.toNat) :=
  ⟨encRegImm_toNat 0x4 x kk, decode_encode_of_rowFits (Laws.RowFits.sneImm x kk) (by simp [Instr.op])⟩

theorem hasOpcode_seReg (x y : Reg) : HasOpcode (.seReg x y) (0x5000 + x.val * 256 + y.val * 16) :=
  ⟨encRegReg_toNat 0x5 x y 0x0, decode_encode_of_rowFits (Laws.RowFits.seReg x y) (by simp [Instr.op])⟩

theorem hasOpcode_sneReg (x y : Reg) : HasOpcode (.sneReg x y) (0x9000 + x.val * 256 + y.val * 16) :=
  ⟨encRegReg_toNat 0x9 x y 0x0, decode_encode_of_rowFits (Laws.RowFits.sneReg x y) (by simp [Instr.op])⟩

/-- Settles O21: each of the four answers with `skipIf` of its own comparison; the illegal
opcodes match no row. -/
theorem skipsCompareAndMovePc : Obligations.SkipsCompareAndMovePc := by
  refine ⟨fun x kk s => ?seImm, fun x kk s => ?sneImm, fun x y s => ?seReg, fun x y s => ?sneReg,
    fun w hspace hlow => ?illegal⟩
  case seImm => exact ⟨hasOpcode_seImm x kk, skips_of_exec (exec_seImm x kk s) beq_iff_eq⟩
  case sneImm => exact ⟨hasOpcode_sneImm x kk, skips_of_exec (exec_sneImm x kk s) bne_iff_ne⟩
  case seReg => exact ⟨hasOpcode_seReg x y, skips_of_exec (exec_seReg x y s) beq_iff_eq⟩
  case sneReg => exact ⟨hasOpcode_sneReg x y, skips_of_exec (exec_sneReg x y s) bne_iff_ne⟩
  case illegal => exact decode_of_lowNibble_ne_zero hspace hlow

end Sys2Proof.Machine
end

