-- ==== Sys2Proof/Proofs/RegisterWrites.lean ====
section
/-! The two ends of an instruction that writes a register (42_alu.md R130): the result alone, and the result and then the
flag. Each completes, sets the registers it writes, moves pc to the next instruction, and changes nothing else. -/

namespace Sys2Proof.Machine

theorem State.setV_getElem (s : State) (x j : Reg) (b : Byte) :
    (s.setV x b).V[j] = if j = x then b else s.V[j] := by
  simp [Vector.getElem_set, Fin.ext_iff, eq_comm]

theorem unchanged_setV (s : State) (x : Reg) (b : Byte) : Unchanged [.V] s (s.setV x b) := by
  intro p hp
  cases p
  case V => simp at hp
  all_goals simp [Part.same]

/-- Two steps with one frame keep that frame. -/
theorem Unchanged.trans_same {but : List Part} {s t u : State} (hst : Unchanged but s t) (htu : Unchanged but t u) :
    Unchanged but s u :=
  fun p hp => Part.same_trans (hst p hp) (htu p hp)

/-- `pc <- pc + 2` after writes to the registers only: pc is past the instruction, and only V and pc have changed. -/
theorem advance_of_unchanged {s u : State} (h : Unchanged [.V] s u) :
    Advanced s u.advance ∧ Unchanged [.V, .pc] s u.advance := by
  have hpc : u.pc = s.pc := h .pc (by decide)
  constructor
  · simp [Advanced, hpc]
  · rw [State.advance_eq]
    exact h.trans (unchanged_setPc u _)

/-- A result and no flag: the destination holds the result, every other register its old value. -/
theorem writes_of_finish {res : Result} {s : State} {x : Reg} {r : Byte} (h : res = finish s x r) :
    ∃ t, res = .next t ∧ (∀ j : Reg, t.V[j] = if j = x then r else s.V[j]) ∧
      Advanced s t ∧ Unchanged [.V, .pc] s t :=
  ⟨_, h, fun j => s.setV_getElem x j r, advance_of_unchanged (unchanged_setV s x r)⟩

/-- A result and then a flag: VF holds the flag, also where VF is the destination; the destination otherwise holds the
result, and every other register its old value. -/
theorem writes_of_finishWithFlag {res : Result} {s : State} {x : Reg} {r flag : Byte}
    (h : res = finishWithFlag s x r flag) :
    ∃ t, res = .next t ∧ (∀ j : Reg, t.V[j] = if j = VF then flag else if j = x then r else s.V[j]) ∧
      Advanced s t ∧ Unchanged [.V, .pc] s t := by
  have hframe := (unchanged_setV s x r).trans_same (unchanged_setV (s.setV x r) VF flag)
  refine ⟨_, h, fun j => ?registers, advance_of_unchanged hframe⟩
  case registers =>
    calc ((s.setV x r).setV VF flag).V[j]
      _ = if j = VF then flag else (s.setV x r).V[j] := State.setV_getElem _ VF j flag
      _ = if j = VF then flag else if j = x then r else s.V[j] := by rw [s.setV_getElem x j r]

/-- `writes_of_finish` in numbers. -/
theorem writes_toNat_of_finish {res : Result} {s : State} {x : Reg} {r : Byte} {n : Nat} (h : res = finish s x r)
    (hr : r.toNat = n) :
    ∃ t, res = .next t ∧ (∀ j : Reg, (t.V[j]).toNat = if j = x then n else (s.V[j]).toNat) ∧
      Advanced s t ∧ Unchanged [.V, .pc] s t := by
  obtain ⟨t, hnext, hregs, hrest⟩ := writes_of_finish h
  exact ⟨t, hnext, fun j => by rw [hregs, apply_ite BitVec.toNat, hr], hrest⟩

/-- `writes_of_finishWithFlag` in numbers. -/
theorem writes_toNat_of_finishWithFlag {res : Result} {s : State} {x : Reg} {r flag : Byte} {n m : Nat}
    (h : res = finishWithFlag s x r flag) (hr : r.toNat = n) (hflag : flag.toNat = m) :
    ∃ t, res = .next t ∧
      (∀ j : Reg, (t.V[j]).toNat = if j = VF then m else if j = x then n else (s.V[j]).toNat) ∧
      Advanced s t ∧ Unchanged [.V, .pc] s t := by
  obtain ⟨t, hnext, hregs, hrest⟩ := writes_of_finishWithFlag h
  exact ⟨t, hnext, fun j => by rw [hregs, apply_ite BitVec.toNat, apply_ite BitVec.toNat, hr, hflag], hrest⟩

/-- `writes_of_finish` bit by bit. -/
theorem writes_bits_of_finish {res : Result} {s : State} {x : Reg} {r : Byte} {bit : Nat → Bool}
    (h : res = finish s x r) (hr : ∀ b, r.getLsbD b = bit b) :
    ∃ t, res = .next t ∧ (∀ b : Nat, b < 8 → (t.V[x]).getLsbD b = bit b) ∧
      (∀ j : Reg, j ≠ x → t.V[j] = s.V[j]) ∧ Advanced s t ∧ Unchanged [.V, .pc] s t := by
  obtain ⟨t, hnext, hregs, hrest⟩ := writes_of_finish h
  exact ⟨t, hnext, fun b _ => by rw [hregs, if_pos rfl, hr], fun j hj => by rw [hregs, if_neg hj], hrest⟩

end Sys2Proof.Machine
end

