-- ==== Sys2Proof/Proofs/AluNumbers.lean ====
section
/-! The results and the flags of the arithmetic instructions as numbers (42_alu.md R131, R138 to R142). -/

namespace Sys2Proof.Machine

theorem flagByte_toNat (c : Bool) : (flagByte c).toNat = if c then 1 else 0 := by
  cases c <;> rfl

theorem carryFlag_toNat (a b : Byte) : (carryFlag a b).toNat = if 255 < a.toNat + b.toNat then 1 else 0 := by
  simp [carryFlag, flagByte_toNat]

theorem borrowFlag_notBorrow_toNat (a b : Byte) :
    (borrowFlag .notBorrow a b).toNat = if b.toNat ≤ a.toNat then 1 else 0 := by
  simp [borrowFlag, flagByte_toNat]

theorem borrowFlag_borrow_toNat (a b : Byte) :
    (borrowFlag .borrow a b).toNat = if a.toNat < b.toNat then 1 else 0 := by
  simp [borrowFlag, flagByte_toNat]

theorem shrFlag_toNat (b : Byte) : (shrFlag b).toNat = b.toNat % 2 := by
  simp [shrFlag, Nat.and_one_is_mod]

theorem and_80_toNat (b : Byte) : (b &&& 0x80#8).toNat = b.toNat / 128 * 128 := by
  have hshift : b &&& 0x80#8 = (b >>> 7) <<< 7 := by
    ext i hi
    interval_cases i <;> simp
  have hb := b.isLt
  rw [hshift]
  simp only [BitVec.toNat_shiftLeft, BitVec.toNat_ushiftRight, Nat.shiftLeft_eq, Nat.shiftRight_eq_div_pow]
  omega

theorem shlFlag_toNat (p : ShiftVf) (b : Byte) :
    (shlFlag p b).toNat = if p = .bit then b.toNat / 128 else b.toNat / 128 * 128 := by
  cases p with
  | bit =>
    have hb := b.isLt
    have htop : b.toNat / 128 % 2 = b.toNat / 128 := by omega
    simpa [shlFlag, Nat.and_one_is_mod, Nat.shiftRight_eq_div_pow] using htop
  | raw => exact and_80_toNat b

/-- `(a - b) mod 256`, with the 256 of a borrow written out. -/
theorem sub_toNat (a b : Byte) : (a - b).toNat = (a.toNat + 256 - b.toNat) % 256 := by
  rw [BitVec.toNat_sub]
  have hb := b.isLt
  omega

theorem shiftRight_one_toNat (b : Byte) : (b >>> 1).toNat = b.toNat / 2 := by
  simp [Nat.shiftRight_eq_div_pow]

theorem shiftLeft_one_toNat (b : Byte) : (b <<< 1).toNat = b.toNat * 2 % 256 := by
  simp [Nat.shiftLeft_eq]

theorem shiftSource_toNat (c : ShiftSrc) (s : State) (x y : Reg) :
    (shiftSource c s x y).toNat = if c = .vx then (s.V[x]).toNat else (s.V[y]).toNat := by
  cases c <;> rfl

end Sys2Proof.Machine
end

