-- ==== Sys2Proof/Proofs/Alu.lean ====
section
/-! Register load, arithmetic and logic (42_alu.md R132 to R142): the opcodes of the instructions, the end each of them
comes to (`finish` or `finishWithFlag`), and the statements about them. -/

namespace Sys2Proof.Machine

/-! ### The opcodes -/

theorem hasOpcode_ldImm (x : Reg) (kk : Byte) : HasOpcode (.ldImm x kk) (0x6000 + x.val * 256 + kk.toNat) :=
  ⟨encRegImm_toNat 0x6 x kk, decode_encode_of_rowFits (Laws.RowFits.ldImm x kk) (by simp [Instr.op])⟩

theorem hasOpcode_addImm (x : Reg) (kk : Byte) : HasOpcode (.addImm x kk) (0x7000 + x.val * 256 + kk.toNat) :=
  ⟨encRegImm_toNat 0x7 x kk, decode_encode_of_rowFits (Laws.RowFits.addImm x kk) (by simp [Instr.op])⟩

/-- An instruction written `8xyf`, f its function code, has that opcode. -/
theorem hasOpcode_of_encRegReg_8 {i : Instr} {x y : Reg} (f : BitVec 4) (henc : encode i = encRegReg 0x8 x y f)
    (hrow : Laws.RowFits.Statement i) (hop : i.op ∉ [Op.cls, Op.ret, Op.sys]) :
    HasOpcode i (0x8000 + f.toNat + x.val * 256 + y.val * 16) := by
  refine ⟨?number, decode_encode_of_rowFits hrow hop⟩
  case number =>
    have h8 : (0x8 : BitVec 4).toNat = 8 := rfl
    rw [henc, encRegReg_toNat, h8]
    omega

theorem hasOpcode_ldReg (x y : Reg) : HasOpcode (.ldReg x y) (0x8000 + x.val * 256 + y.val * 16) :=
  hasOpcode_of_encRegReg_8 0x0 rfl (Laws.RowFits.ldReg x y) (by simp [Instr.op])

theorem hasOpcode_orReg (x y : Reg) : HasOpcode (.orReg x y) (0x8001 + x.val * 256 + y.val * 16) :=
  hasOpcode_of_encRegReg_8 0x1 rfl (Laws.RowFits.orReg x y) (by simp [Instr.op])

theorem hasOpcode_andReg (x y : Reg) : HasOpcode (.andReg x y) (0x8002 + x.val * 256 + y.val * 16) :=
  hasOpcode_of_encRegReg_8 0x2 rfl (Laws.RowFits.andReg x y) (by simp [Instr.op])

theorem hasOpcode_xorReg (x y : Reg) : HasOpcode (.xorReg x y) (0x8003 + x.val * 256 + y.val * 16) :=
  hasOpcode_of_encRegReg_8 0x3 rfl (Laws.RowFits.xorReg x y) (by simp [Instr.op])

theorem hasOpcode_addReg (x y : Reg) : HasOpcode (.addReg x y) (0x8004 + x.val * 256 + y.val * 16) :=
  hasOpcode_of_encRegReg_8 0x4 rfl (Laws.RowFits.addReg x y) (by simp [Instr.op])

theorem hasOpcode_sub (x y : Reg) : HasOpcode (.sub x y) (0x8005 + x.val * 256 + y.val * 16) :=
  hasOpcode_of_encRegReg_8 0x5 rfl (Laws.RowFits.sub x y) (by simp [Instr.op])

theorem hasOpcode_shr (x y : Reg) : HasOpcode (.shr x y) (0x8006 + x.val * 256 + y.val * 16) :=
  hasOpcode_of_encRegReg_8 0x6 rfl (Laws.RowFits.shr x y) (by simp [Instr.op])

theorem hasOpcode_subn (x y : Reg) : HasOpcode (.subn x y) (0x8007 + x.val * 256 + y.val * 16) :=
  hasOpcode_of_encRegReg_8 0x7 rfl (Laws.RowFits.subn x y) (by simp [Instr.op])

theorem hasOpcode_shl (x y : Reg) : HasOpcode (.shl x y) (0x800E + x.val * 256 + y.val * 16) :=
  hasOpcode_of_encRegReg_8 0xE rfl (Laws.RowFits.shl x y) (by simp [Instr.op])

/-! ### What each instruction comes to, at the decided configuration and where a configuration point decides otherwise -/

section
variable (x y : Reg) (kk : Byte) (s : State)

theorem exec_ldImm : exec (.ldImm x kk) s = finish s x kk := rfl

theorem exec_ldReg : exec (.ldReg x y) s = finish s x s.V[y] := rfl

theorem exec_addImm : exec (.addImm x kk) s = finish s x (s.V[x] + kk) := rfl

theorem addImmWith_of_carry {cfg : Config} (h : cfg.addiVf = .carry) :
    addImmWith cfg x kk s = finishWithFlag s x (s.V[x] + kk) (carryFlag s.V[x] kk) := by
  simp only [addImmWith, h]

theorem exec_orReg : exec (.orReg x y) s = finish s x (s.V[x] ||| s.V[y]) := rfl

theorem exec_andReg : exec (.andReg x y) s = finish s x (s.V[x] &&& s.V[y]) := rfl

theorem exec_xorReg : exec (.xorReg x y) s = finish s x (s.V[x] ^^^ s.V[y]) := rfl

/-- The common end of OR, AND and XOR under `LOGIC_VF = ZERO`. -/
theorem finishLogic_of_zero {cfg : Config} (h : cfg.logicVf = .zero) (r : Byte) :
    finishLogic cfg s x r = finishWithFlag s x r 0 := by
  simp only [finishLogic, h]

theorem exec_addReg :
    exec (.addReg x y) s = finishWithFlag s x (s.V[x] + s.V[y]) (carryFlag s.V[x] s.V[y]) := rfl

theorem exec_sub :
    exec (.sub x y) s = finishWithFlag s x (s.V[x] - s.V[y]) (borrowFlag .notBorrow s.V[x] s.V[y]) := rfl

theorem subWith_of_borrow {cfg : Config} (h : cfg.subVf = .borrow) :
    subWith cfg x y s = finishWithFlag s x (s.V[x] - s.V[y]) (borrowFlag .borrow s.V[x] s.V[y]) := by
  rw [subWith, h]

theorem exec_subn :
    exec (.subn x y) s = finishWithFlag s x (s.V[y] - s.V[x]) (borrowFlag .notBorrow s.V[y] s.V[x]) := rfl

theorem subnWith_of_borrow {cfg : Config} (h : cfg.subVf = .borrow) :
    subnWith cfg x y s = finishWithFlag s x (s.V[y] - s.V[x]) (borrowFlag .borrow s.V[y] s.V[x]) := by
  rw [subnWith, h]

theorem exec_shr : exec (.shr x y) s = finishWithFlag s x (s.V[x] >>> 1) (shrFlag s.V[x]) := rfl

theorem shrWith_eq (cfg : Config) :
    shrWith cfg x y s = finishWithFlag s x (shiftSource cfg.shiftSrc s x y >>> 1)
      (shrFlag (shiftSource cfg.shiftSrc s x y)) := rfl

theorem exec_shl : exec (.shl x y) s = finishWithFlag s x (s.V[x] <<< 1) (shlFlag .bit s.V[x]) := rfl

theorem shlWith_eq (cfg : Config) :
    shlWith cfg x y s = finishWithFlag s x (shiftSource cfg.shiftSrc s x y <<< 1)
      (shlFlag cfg.shiftVf (shiftSource cfg.shiftSrc s x y)) := rfl

end

/-! ### The statements -/

/-- Settles O22: both loads end in `finish`, with the literal or the other register as the result. -/
theorem loadsWriteTheirRegister : Obligations.LoadsWriteTheirRegister := by
  refine ⟨fun x kk s => ⟨hasOpcode_ldImm x kk, ?literal⟩, fun x y s => ⟨hasOpcode_ldReg x y, ?register⟩⟩
  case literal => exact writes_of_finish (exec_ldImm x kk s)
  case register => exact writes_of_finish (exec_ldReg x y s)

/-- Settles O23: the sum alone at the decided `ADDI_VF`, the sum and then its carry under `CARRY`. -/
theorem addLiteralWrapsAndWritesNoFlag : Obligations.AddLiteralWrapsAndWritesNoFlag := by
  refine fun x kk s => ⟨hasOpcode_addImm x kk, ?decided, fun cfg hcarry => ?carry⟩
  case decided => exact writes_toNat_of_finish (exec_addImm x kk s) (BitVec.toNat_add _ _)
  case carry =>
    exact writes_toNat_of_finishWithFlag (addImmWith_of_carry x kk s hcarry) (BitVec.toNat_add _ _) (carryFlag_toNat _ _)

/-- Settles O24: each of the three ends in `finish` at the decided `LOGIC_VF`, and with the flag 0 under `ZERO`; the bits
are those of the three operators. -/
theorem logicIsBitwiseAndWritesNoFlag : Obligations.LogicIsBitwiseAndWritesNoFlag := by
  refine fun x y s => ⟨⟨hasOpcode_orReg x y, ?or⟩, ⟨hasOpcode_andReg x y, ?and⟩, ⟨hasOpcode_xorReg x y, ?xor⟩,
    fun cfg hzero => ⟨?orZero, ?andZero, ?xorZero⟩⟩
  case or => exact writes_bits_of_finish (exec_orReg x y s) fun _ => BitVec.getLsbD_or
  case and => exact writes_bits_of_finish (exec_andReg x y s) fun _ => BitVec.getLsbD_and
  case xor => exact writes_bits_of_finish (exec_xorReg x y s) fun _ => BitVec.getLsbD_xor
  all_goals exact writes_of_finishWithFlag (finishLogic_of_zero x s hzero _)

/-- Settles O25: the sum, then its carry. -/
theorem addRegistersSetsCarryLast : Obligations.AddRegistersSetsCarryLast :=
  fun x y s => ⟨hasOpcode_addReg x y,
    writes_toNat_of_finishWithFlag (exec_addReg x y s) (BitVec.toNat_add _ _) (carryFlag_toNat _ _)⟩

/-- Settles O26: the difference, then its borrow flag in either polarity. -/
theorem subtractSetsNotBorrowLast : Obligations.SubtractSetsNotBorrowLast := by
  refine fun x y s => ⟨hasOpcode_sub x y, ?notBorrow, fun cfg hborrow => ?borrow⟩
  case notBorrow =>
    exact writes_toNat_of_finishWithFlag (exec_sub x y s) (sub_toNat _ _) (borrowFlag_notBorrow_toNat _ _)
  case borrow =>
    exact writes_toNat_of_finishWithFlag (subWith_of_borrow x y s hborrow) (sub_toNat _ _) (borrowFlag_borrow_toNat _ _)

/-- Settles O27: as SUB, with Vy as the minuend and Vx as the subtrahend. -/
theorem reverseSubtractSetsNotBorrowLast : Obligations.ReverseSubtractSetsNotBorrowLast := by
  refine fun x y s => ⟨hasOpcode_subn x y, ?notBorrow, fun cfg hborrow => ?borrow⟩
  case notBorrow =>
    exact writes_toNat_of_finishWithFlag (exec_subn x y s) (sub_toNat _ _) (borrowFlag_notBorrow_toNat _ _)
  case borrow =>
    exact writes_toNat_of_finishWithFlag (subnWith_of_borrow x y s hborrow) (sub_toNat _ _) (borrowFlag_borrow_toNat _ _)

/-- Settles O28: the source halved, then its bit 0; the flag does not depend on `SHIFT_VF`. -/
theorem shiftRightSetsTheBitShiftedOut : Obligations.ShiftRightSetsTheBitShiftedOut := by
  refine fun x y s => ⟨hasOpcode_shr x y, ?decided, fun cfg => ?configured⟩
  case decided =>
    exact writes_toNat_of_finishWithFlag (exec_shr x y s) (shiftRight_one_toNat _) (shrFlag_toNat _)
  case configured =>
    rw [← shiftSource_toNat]
    exact writes_toNat_of_finishWithFlag (shrWith_eq x y s cfg) (shiftRight_one_toNat _) (shrFlag_toNat _)

/-- Settles O29: the source doubled, then its bit 7 in the form that `SHIFT_VF` says. -/
theorem shiftLeftSetsTheBitShiftedOut : Obligations.ShiftLeftSetsTheBitShiftedOut := by
  refine fun x y s => ⟨hasOpcode_shl x y, ?decided, fun cfg => ?configured⟩
  case decided =>
    exact writes_toNat_of_finishWithFlag (exec_shl x y s) (shiftLeft_one_toNat _) (shlFlag_toNat .bit _)
  case configured =>
    rw [← shiftSource_toNat]
    exact writes_toNat_of_finishWithFlag (shlWith_eq x y s cfg) (shiftLeft_one_toNat _) (shlFlag_toNat cfg.shiftVf _)

end Sys2Proof.Machine
end

