-- ==== Sys2Proof/Proofs/IndexLoads.lean ====
section
/-! LD I and ADD I (43_index_random.md R160, R161): their opcodes, and the write of I both of them come to. -/

namespace Sys2Proof.Machine

theorem unchanged_setI (s : State) (w : Word) : Unchanged [.I] s (s.setI w) := by
  intro p hp
  cases p
  case I => simp at hp
  all_goals simp [Part.same]

/-- A write of I and then `pc <- pc + 2`: I holds the number written, pc is past the instruction, and nothing else has
changed. -/
theorem writes_of_setI {res : Result} {s : State} {w : Word} {n : Nat} (h : res = .next (s.setI w).advance)
    (hw : w.toNat = n) :
    ∃ t, res = .next t ∧ t.I.toNat = n ∧ Advanced s t ∧ Unchanged [.I, .pc] s t := by
  refine ⟨_, h, ?index, ?advanced, ?frame⟩
  case index => simpa using hw
  case advanced => simp [Advanced]
  case frame =>
    rw [State.advance_eq]
    exact (unchanged_setI s w).trans (unchanged_setPc (s.setI w) _)

theorem exec_ldI (nnn : Addr12) (s : State) : exec (.ldI nnn) s = .next (s.setI (zextAddr nnn)).advance := rfl

theorem exec_addI (x : Reg) (s : State) : exec (.addI x) s = .next (s.setI (s.I + zextByte s.V[x])).advance := rfl

theorem hasOpcode_ldI (nnn : Addr12) : HasOpcode (.ldI nnn) (0xA000 + nnn.toNat) :=
  ⟨encAddr_toNat 0xA nnn, decode_encode_of_rowFits (Laws.RowFits.ldI nnn) (by simp [Instr.op])⟩

theorem hasOpcode_addI (x : Reg) : HasOpcode (.addI x) (0xF01E + x.val * 256) := by
  refine ⟨?number, decode_encode_of_rowFits (Laws.RowFits.addI x) (by simp [Instr.op])⟩
  case number =>
    calc (encode (.addI x)).toNat
      _ = 0xF000 + x.val * 256 + 0x1E := encReg_toNat 0xF x 0x1E
      _ = 0xF01E + x.val * 256 := by omega

/-- The sum of I and a byte wraps at 2^16, with no range check (43_index_random.md R161). -/
theorem add_zextByte_toNat (w : Word) (b : Byte) : (w + zextByte b).toNat = (w.toNat + b.toNat) % 65536 := by
  rw [BitVec.toNat_add, zextByte_toNat]

/-- Settles O30: both instructions are one write of I, LD I of the zero-extended literal, ADD I of the wrapped sum. -/
theorem indexLoadsAndAddsIn16Bits : Obligations.IndexLoadsAndAddsIn16Bits := by
  refine ⟨fun nnn s => ⟨hasOpcode_ldI nnn, ?load⟩, fun x s => ⟨hasOpcode_addI x, ?add⟩⟩
  case load => exact writes_of_setI (exec_ldI nnn s) (zextAddr_toNat nnn)
  case add => exact writes_of_setI (exec_addI x s) (add_zextByte_toNat s.I s.V[x])

end Sys2Proof.Machine
end

