-- ==== Sys2Proof/Proofs/Display.lean ====
section
/-! CLS and DRW (44_display.md R170 to R173): their opcodes, the frame of a write of the frame buffer, and the canvas that a
DRW draws, whose inverted pixels are those that `Covered` names. -/

namespace Sys2Proof.Machine

/-! ### What both instructions leave unchanged -/

theorem unchanged_setFb (s : State) (f : FrameBuffer) : Unchanged [.fb] s (s.setFb f) := by
  intro p hp
  cases p
  case fb => simp at hp
  all_goals simp [Part.same]

/-- `pc <- pc + 2` after writes that do not touch pc: pc is past the instruction, and only it has changed besides them. -/
theorem advance_of_frame {but : List Part} {s u : State} (h : Unchanged but s u) (hbut : Part.pc ∉ but) :
    Advanced s u.advance ∧ Unchanged (but ++ [.pc]) s u.advance := by
  have hpc : u.pc = s.pc := h .pc hbut
  constructor
  · simp [Advanced, hpc]
  · rw [State.advance_eq]
    exact h.trans (unchanged_setPc u _)

/-! ### CLS -/

theorem exec_cls (s : State) : exec .cls s = .next (s.setFb (Vector.replicate 2048 false)).advance := rfl

theorem hasOpcode_cls : HasOpcode .cls 0x00E0 := ⟨rfl, rfl⟩

/-- Settles O33: CLS is one write of the frame buffer, all of it off. -/
theorem clearScreenZeroesEveryPixel : Obligations.ClearScreenZeroesEveryPixel := by
  refine ⟨hasOpcode_cls, fun s => ⟨_, exec_cls s, fun j => ?pixel, advance_of_frame (unchanged_setFb s _) (by decide)⟩⟩
  case pixel => simp

/-! ### The canvas of a DRW -/

/-- The bytes of the sprite at address i, top row first (R171). -/
def spriteAt (m : Memory) (i n : Nat) : List Byte := (List.range n).map fun k => m.read (i + k)

/-- The frame buffer and the collision that DRW comes to, where its sprite lies in memory (R173). -/
def drawn (x y : Reg) (n : Height) (s : State) : Canvas :=
  drawRows (originX s x) (originY s y) (spriteAt s.mem s.I.toNat n.val) ⟨s.fb, false⟩

/-- Pixel j lies under a set bit of the sprite that DRW draws, with its origin at (Vx mod 64, Vy mod 32) (R171, R172). -/
def UnderSprite (x y : Reg) (n : Height) (s : State) (j : Nat) : Prop :=
  Covered s.mem s.I.toNat (originX s x) (originY s y) n.val j

/-- The pixels under the rows of the sprite in memory are the covered ones. -/
theorem rowsUnder_spriteAt_iff (m : Memory) (i x0 y0 n j : Nat) :
    rowsUnder x0 y0 (spriteAt m i n) j = true ↔ Covered m i x0 y0 n j := by
  rw [rowsUnder_iff, Covered]
  constructor
  · rintro ⟨r, hr, hrow, hleft, hright, hbit⟩
    have hrn : r < n := by simpa [spriteAt] using hr
    have hoffset : j / 64 - y0 = r := by omega
    refine ⟨hleft, hright, by omega, by omega, ?_⟩
    simpa [hoffset, spriteAt, spriteBit] using hbit
  · rintro ⟨hleft, hright, htop, hbottom, hbit⟩
    exact ⟨j / 64 - y0, by simp [spriteAt]; omega, by omega, hleft, hright, by simpa [spriteAt, spriteBit] using hbit⟩

/-- A pixel keeps its value exactly when no set bit of the sprite lies over it. -/
theorem drawn_fb_eq_iff (x y : Reg) (n : Height) (s : State) (j : Fin 2048) :
    (drawn x y n s).fb[j] = s.fb[j] ↔ ¬ UnderSprite x y n s j.val := by
  have hxor := (drawRows_spec (originX s x) (originY s y) (spriteAt s.mem s.I.toNat n.val) ⟨s.fb, false⟩).1 j.val j.isLt
  rw [UnderSprite, ← rowsUnder_spriteAt_iff, Fin.getElem_fin, Fin.getElem_fin, drawn, hxor]
  cases s.fb[j.val] <;> simp

/-- The collision is noted exactly when a pixel under the sprite was on. -/
theorem drawn_hit_iff (x y : Reg) (n : Height) (s : State) :
    (drawn x y n s).hit = true ↔ ∃ j : Fin 2048, s.fb[j] = true ∧ UnderSprite x y n s j.val := by
  have hhit := (drawRows_spec (originX s x) (originY s y) (spriteAt s.mem s.I.toNat n.val) ⟨s.fb, false⟩).2
  simp only [rowsUnder_spriteAt_iff, Bool.false_eq_true, false_or] at hhit
  rw [drawn, hhit]
  exact ⟨fun ⟨j, hj, hunder, hon⟩ => ⟨⟨j, hj⟩, hon, hunder⟩, fun ⟨j, hon, hunder⟩ => ⟨j.val, j.isLt, hunder, hon⟩⟩

/-! ### DRW -/

theorem hasOpcode_drw (x y : Reg) (n : Height) :
    HasOpcode (.drw x y n) (0xD000 + x.val * 256 + y.val * 16 + n.val) :=
  ⟨encRegReg_toNat 0xD x y (nibble n), decode_encode_of_rowFits (Laws.RowFits.drw x y n) (by simp [Instr.op])⟩

theorem exec_drw (x y : Reg) (n : Height) (s : State) : exec (.drw x y n) s = execDrw x y n s := rfl

/-- A sprite that runs beyond memory raises `InvalidAddress` (R173). -/
theorem exec_drw_beyond_memory {n : Height} {s : State} (h : 4096 < s.I.toNat + n.val) (x y : Reg) :
    exec (.drw x y n) s = .fault .invalidAddress := by
  simp [exec_drw, execDrw, memRead_error_iff.mpr ⟨h, rfl⟩]

/-- A sprite inside memory is drawn: the collision goes to VF, the canvas to the frame buffer (R173). -/
theorem exec_drw_inside_memory {n : Height} {s : State} (h : s.I.toNat + n.val ≤ 4096) (x y : Reg) :
    exec (.drw x y n) s =
      .next ((s.setV VF (flagByte (drawn x y n s).hit)).setFb (drawn x y n s).fb).advance := by
  have hread : memRead s.mem s.I.toNat n.val = .ok (spriteAt s.mem s.I.toNat n.val) := memRead_ok_iff.mpr ⟨h, rfl⟩
  simp only [exec_drw, execDrw, hread, State.setVF_eq, drawn]

/-- A byte that is the flag of `p` is 1 where `p` holds and 0 where it does not. -/
theorem flag_cases {b : Byte} {c : Bool} {p : Prop} (hb : b = flagByte c) (hc : c = true ↔ p) :
    (b = 1 ∧ p) ∨ (b = 0 ∧ ¬ p) := by
  subst hb
  cases c with
  | true => exact .inl ⟨rfl, hc.mp rfl⟩
  | false => exact .inr ⟨rfl, fun hp => Bool.false_ne_true (hc.mpr hp)⟩

/-- Settles O34: beyond memory by the range check of the sprite's read; inside it by what the canvas of the old state is,
since VF and the frame buffer are written after it is drawn. -/
theorem drawInvertsExactlyTheCoveredPixels : Obligations.DrawInvertsExactlyTheCoveredPixels := by
  refine fun x y n s => ⟨hasOpcode_drw x y n, fun h => exec_drw_beyond_memory h x y, fun h =>
    ⟨_, exec_drw_inside_memory h x y, drawn_fb_eq_iff x y n s, ?flag, fun j hj => ?register, ?frame⟩⟩
  case flag => exact flag_cases ((s.setV_getElem VF VF _).trans (if_pos rfl)) (drawn_hit_iff x y n s)
  case register => exact (s.setV_getElem VF j _).trans (if_neg hj)
  case frame => exact advance_of_frame ((unchanged_setV s VF _).trans (unchanged_setFb _ _)) (by decide)

end Sys2Proof.Machine
end

