-- ==== Sys2Proof/Proofs/InputTimers.lean ====
section
/-! SKP, SKNP, LD Vx, K and the timer transfers (45_input_timers.md R190 to R195): their opcodes, what the key accessors
answer to them, and the writes they come to. -/

namespace Sys2Proof.Machine

/-! ### Opcodes -/

/-- The opcode of an instruction with one register operand and a fixed low byte. -/
theorem hasOpcode_of_encReg {i : Instr} {x : Reg} (o : BitVec 4) (ff : Byte) (henc : encode i = encReg o x ff)
    (hrow : Laws.RowFits.Statement i) (hop : i.op ∉ [Op.cls, Op.ret, Op.sys]) :
    HasOpcode i (o.toNat * 4096 + ff.toNat + x.val * 256) := by
  refine ⟨?number, decode_encode_of_rowFits hrow hop⟩
  case number => rw [henc, encReg_toNat, Nat.add_right_comm]

theorem hasOpcode_skp (x : Reg) : HasOpcode (.skp x) (0xE09E + x.val * 256) :=
  hasOpcode_of_encReg 0xE 0x9E rfl (Laws.RowFits.skp x) (by simp [Instr.op])

theorem hasOpcode_sknp (x : Reg) : HasOpcode (.sknp x) (0xE0A1 + x.val * 256) :=
  hasOpcode_of_encReg 0xE 0xA1 rfl (Laws.RowFits.sknp x) (by simp [Instr.op])

theorem hasOpcode_ldVxK (x : Reg) : HasOpcode (.ldVxK x) (0xF00A + x.val * 256) :=
  hasOpcode_of_encReg 0xF 0x0A rfl (Laws.RowFits.ldVxK x) (by simp [Instr.op])

theorem hasOpcode_ldVxDT (x : Reg) : HasOpcode (.ldVxDT x) (0xF007 + x.val * 256) :=
  hasOpcode_of_encReg 0xF 0x07 rfl (Laws.RowFits.ldVxDT x) (by simp [Instr.op])

theorem hasOpcode_ldDTVx (x : Reg) : HasOpcode (.ldDTVx x) (0xF015 + x.val * 256) :=
  hasOpcode_of_encReg 0xF 0x15 rfl (Laws.RowFits.ldDTVx x) (by simp [Instr.op])

theorem hasOpcode_ldSTVx (x : Reg) : HasOpcode (.ldSTVx x) (0xF018 + x.val * 256) :=
  hasOpcode_of_encReg 0xF 0x18 rfl (Laws.RowFits.ldSTVx x) (by simp [Instr.op])

/-! ### SKP and SKNP -/

/-- A byte above 15 names no key (10_state.md R31). -/
theorem keyIsDown_above_15 (s : State) {i : Byte} (h : 15 < i.toNat) : keyIsDown s i = .error .invalidKey := by
  rcases keyIsDown_cases s i with ⟨-, herror⟩ | ⟨hlt, -⟩
  · exact herror
  · omega

theorem exec_skp (x : Reg) (s : State) : exec (.skp x) s = execSkp x s := rfl

theorem exec_sknp (x : Reg) (s : State) : exec (.sknp x) s = execSknp x s := rfl

theorem exec_skp_of_keyIsDown_error {x : Reg} {s : State} {e : Fault} (h : keyIsDown s s.V[x] = .error e) :
    exec (.skp x) s = .fault e := by
  simp only [exec_skp, execSkp, h, raise]

theorem exec_sknp_of_keyIsDown_error {x : Reg} {s : State} {e : Fault} (h : keyIsDown s s.V[x] = .error e) :
    exec (.sknp x) s = .fault e := by
  simp only [exec_sknp, execSknp, h, raise]

theorem exec_skp_of_keyIsDown_ok {x : Reg} {s : State} {down : Bool} (h : keyIsDown s s.V[x] = .ok down) :
    exec (.skp x) s = .next (s.skipIf down) := by
  simp only [exec_skp, execSkp, h]

theorem exec_sknp_of_keyIsDown_ok {x : Reg} {s : State} {down : Bool} (h : keyIsDown s s.V[x] = .ok down) :
    exec (.sknp x) s = .next (s.skipIf !down) := by
  simp only [exec_sknp, execSknp, h]

/-- Settles O37: both read the key that Vx names, which fails above 15, and skip by its level or by the negation of it. -/
theorem keySkipsTestTheKeyLevel : Obligations.KeySkipsTestTheKeyLevel := by
  refine fun x s => ⟨hasOpcode_skp x, hasOpcode_sknp x, fun h => ?invalid, fun k hk => ?level⟩
  case invalid =>
    have hkey := keyIsDown_above_15 s h
    exact ⟨exec_skp_of_keyIsDown_error hkey, exec_sknp_of_keyIsDown_error hkey⟩
  case level =>
    have hkey := keyIsDown_reg s hk
    exact ⟨skips_of_exec (exec_skp_of_keyIsDown_ok hkey) Iff.rfl,
      skips_of_exec (exec_sknp_of_keyIsDown_ok hkey) (iff_of_eq (Bool.not_eq_true' _))⟩

/-! ### LD Vx, K -/

/-- The key that is down with every lower key up is the one `firstKeyDown` finds: the converse of `firstKeyDown_some`. -/
theorem firstKeyDown_of_lowest {s : State} {k : Reg} (hdown : s.keys[k] = true)
    (hlowest : ∀ j : Reg, j < k → s.keys[j] = false) : firstKeyDown s = some k := by
  cases hfind : firstKeyDown s with
  | none => exact absurd hdown (by simp [(firstKeyDown_none_iff s).mp hfind k])
  | some k' =>
    obtain ⟨hdown', hlowest'⟩ := firstKeyDown_some hfind
    rcases lt_trichotomy k' k with hlt | heq | hgt
    · exact absurd hdown' (by simp [hlowest k' hlt])
    · rw [heq]
    · exact absurd hdown (by simp [hlowest' k hgt])

theorem exec_ldVxK (x : Reg) (s : State) : exec (.ldVxK x) s = execLdVxK x s := rfl

theorem exec_ldVxK_of_none {s : State} (h : firstKeyDown s = none) (x : Reg) : exec (.ldVxK x) s = .next s := by
  simp only [exec_ldVxK, execLdVxK, h]

theorem exec_ldVxK_of_some {s : State} {k : Reg} (h : firstKeyDown s = some k) (x : Reg) :
    exec (.ldVxK x) s = finish s x (BitVec.ofNat 8 k.val) := by
  simp only [exec_ldVxK, execLdVxK, h]

/-- The number of a key fits in a byte. -/
theorem keyByte_toNat (k : Reg) : (BitVec.ofNat 8 k.val).toNat = k.val :=
  Nat.mod_eq_of_lt (by omega)

/-- Settles O38: the key stored is the one `firstKeyDown` finds, and with none the state is the next state. -/
theorem keyWaitStoresTheLowestKeyDown : Obligations.KeyWaitStoresTheLowestKeyDown := by
  refine fun x s => ⟨hasOpcode_ldVxK x, fun hup => ?wait, fun k hdown hlowest => ?store⟩
  case wait => exact exec_ldVxK_of_none ((firstKeyDown_none_iff s).mpr hup) x
  case store =>
    exact writes_toNat_of_finish (exec_ldVxK_of_some (firstKeyDown_of_lowest hdown hlowest) x) (keyByte_toNat k)

/-! ### The timer transfers -/

theorem unchanged_setDT (s : State) (b : Byte) : Unchanged [.DT] s (s.setDT b) := by
  intro p hp
  cases p
  case DT => simp at hp
  all_goals simp [Part.same]

theorem unchanged_setST (s : State) (b : Byte) : Unchanged [.ST] s (s.setST b) := by
  intro p hp
  cases p
  case ST => simp at hp
  all_goals simp [Part.same]

theorem exec_ldVxDT (x : Reg) (s : State) : exec (.ldVxDT x) s = finish s x s.DT := rfl

theorem exec_ldDTVx (x : Reg) (s : State) : exec (.ldDTVx x) s = .next (s.setDT s.V[x]).advance := rfl

theorem exec_ldSTVx (x : Reg) (s : State) : exec (.ldSTVx x) s = .next (s.setST s.V[x]).advance := rfl

/-- Settles O40: each transfer is one write, of Vx or of one timer, and then `pc <- pc + 2`. -/
theorem timerTransfersCopy : Obligations.TimerTransfersCopy := by
  refine fun x s => ⟨⟨hasOpcode_ldVxDT x, ?read⟩, ⟨hasOpcode_ldDTVx x, ?delay⟩, ⟨hasOpcode_ldSTVx x, ?sound⟩⟩
  case read => exact writes_of_finish (exec_ldVxDT x s)
  case delay => exact ⟨_, exec_ldDTVx x s, rfl, advance_of_frame (unchanged_setDT s _) (by decide)⟩
  case sound => exact ⟨_, exec_ldSTVx x s, rfl, advance_of_frame (unchanged_setST s _) (by decide)⟩

end Sys2Proof.Machine
end

