-- ==== Sys2Proof/Proofs/MemoryOps.lean ====
section
/-! LD F, LD B, LD [I] and LD Vx, [I] (46_memory_ops.md R210 to R213): their opcodes, what a range write does to memory,
and the bulk transfers at any configuration. -/

namespace Sys2Proof.Machine

/-! ### Opcodes -/

theorem hasOpcode_ldF (x : Reg) : HasOpcode (.ldF x) (0xF029 + x.val * 256) :=
  hasOpcode_of_encReg 0xF 0x29 rfl (Laws.RowFits.ldF x) (by simp [Instr.op])

theorem hasOpcode_ldB (x : Reg) : HasOpcode (.ldB x) (0xF033 + x.val * 256) :=
  hasOpcode_of_encReg 0xF 0x33 rfl (Laws.RowFits.ldB x) (by simp [Instr.op])

theorem hasOpcode_storeRegs (x : Reg) : HasOpcode (.storeRegs x) (0xF055 + x.val * 256) :=
  hasOpcode_of_encReg 0xF 0x55 rfl (Laws.RowFits.storeRegs x) (by simp [Instr.op])

theorem hasOpcode_loadRegs (x : Reg) : HasOpcode (.loadRegs x) (0xF065 + x.val * 256) :=
  hasOpcode_of_encReg 0xF 0x65 rfl (Laws.RowFits.loadRegs x) (by simp [Instr.op])

/-! ### Frames -/

theorem unchanged_setMem (s : State) (m : Memory) : Unchanged [.mem] s (s.setMem m) := by
  intro p hp
  cases p
  case mem => simp at hp
  all_goals simp [Part.same]

theorem unchanged_setRegs (s : State) (vs : Vector Byte 16) : Unchanged [.V] s (s.setRegs vs) := by
  intro p hp
  cases p
  case V => simp at hp
  all_goals simp [Part.same]

/-- A piece of state on which the two states agree need not be listed among the changed ones. -/
theorem Unchanged.drop_same {but but' : List Part} {p : Part} {s t : State} (h : Unchanged but s t) (hp : p.same s t)
    (hbut : ∀ q ∈ but, q = p ∨ q ∈ but') : Unchanged but' s t := by
  intro q hq
  by_cases hmem : q ∈ but
  · obtain rfl : q = p := (hbut q hmem).resolve_right hq
    exact hp
  · exact h q hmem

/-! ### LD F -/

/-- No glyph address wraps at 2^16. -/
theorem glyphAddress_toNat (d : Byte) : (glyphAddress d).toNat = 0x50 + 5 * d.toNat := by
  have hd := d.isLt
  rw [glyphAddress, BitVec.toNat_ofNat, fontBase]
  omega

theorem exec_ldF_above_15 {x : Reg} {s : State} (h : 15 < s.V[x].toNat) : exec (.ldF x) s = .fault .invalidDigit :=
  if_pos h

theorem exec_ldF_of_digit {x : Reg} {s : State} (h : s.V[x].toNat ≤ 15) :
    exec (.ldF x) s = .next (s.setI (glyphAddress s.V[x])).advance :=
  if_neg (Nat.not_lt.mpr h)

/-- Settles O41: above 15 by the check that LD F makes first; otherwise it is one write of I. -/
theorem glyphAddressOrInvalidDigit : Obligations.GlyphAddressOrInvalidDigit :=
  fun x s => ⟨hasOpcode_ldF x, exec_ldF_above_15, fun h =>
    writes_of_setI (exec_ldF_of_digit h) (glyphAddress_toNat s.V[x])⟩

/-! ### A range write -/

/-- A write of a range inside memory succeeds: byte k goes to addr + k, and every byte outside the range reads as before
(20_memory.md R53). -/
theorem memWrite_inside_memory {m : Memory} (hw : m.wf = true) {addr : Nat} {bytes : List Byte}
    (h : addr + bytes.length ≤ 4096) :
    ∃ m', memWrite m addr bytes = .ok m' ∧
      (∀ (k : Nat) (hk : k < bytes.length), m'.read (addr + k) = bytes[k]) ∧
      (∀ a : Nat, a < addr ∨ addr + bytes.length ≤ a → m'.read a = m.read a) :=
  ⟨_, memWrite_ok_iff.mpr ⟨h, rfl⟩, Memory.read_writeAll_inside hw addr bytes h,
    fun _ ha => Memory.read_writeAll_outside m addr bytes ha⟩

/-! ### LD B -/

theorem exec_ldB (x : Reg) (s : State) : exec (.ldB x) s = execLdB x s := rfl

theorem exec_ldB_of_memWrite_error {x : Reg} {s : State} {e : Fault}
    (h : memWrite s.mem s.I.toNat (bcdDigits s.V[x]) = .error e) : exec (.ldB x) s = .fault e := by
  simp only [exec_ldB, execLdB, h, raise]

theorem exec_ldB_of_memWrite_ok {x : Reg} {s : State} {m : Memory}
    (h : memWrite s.mem s.I.toNat (bcdDigits s.V[x]) = .ok m) : exec (.ldB x) s = .next (s.setMem m).advance := by
  simp only [exec_ldB, execLdB, h]

@[simp] theorem bcdDigits_length (v : Byte) : (bcdDigits v).length = 3 := rfl

/-- Each digit fits in its byte: hundreds, tens, ones (R211). -/
theorem bcdDigits_toNat (v : Byte) :
    (bcdDigits v)[0].toNat = v.toNat / 100 ∧ (bcdDigits v)[1].toNat = v.toNat / 10 % 10 ∧
      (bcdDigits v)[2].toNat = v.toNat % 10 := by
  have hv := v.isLt
  refine ⟨Nat.mod_eq_of_lt ?hundreds, Nat.mod_eq_of_lt ?tens, Nat.mod_eq_of_lt ?ones⟩ <;> omega

/-- Settles O42: LD B is one write of a three-byte range, which fails where the range check does. -/
theorem bcdStoresThreeDigits : Obligations.BcdStoresThreeDigits := by
  refine fun x s => ⟨hasOpcode_ldB x, fun h => ?beyond, fun hw h => ?inside⟩
  case beyond => exact exec_ldB_of_memWrite_error (memWrite_error_iff.mpr ⟨h, rfl⟩)
  case inside =>
    obtain ⟨m, hwrite, hdigits, houtside⟩ := memWrite_inside_memory (bytes := bcdDigits s.V[x]) hw h
    obtain ⟨hhundreds, htens, hones⟩ := bcdDigits_toNat s.V[x]
    refine ⟨_, exec_ldB_of_memWrite_ok hwrite, ?hundreds, ?tens, ?ones, houtside,
      advance_of_frame (unchanged_setMem s m) (by decide)⟩
    case hundreds => exact (congrArg BitVec.toNat (hdigits 0 (by simp))).trans hhundreds
    case tens => exact (congrArg BitVec.toNat (hdigits 1 (by simp))).trans htens
    case ones => exact (congrArg BitVec.toNat (hdigits 2 (by simp))).trans hones

/-! ### The extent of a bulk transfer -/

theorem bulkCount_of_inclusive {cfg : Config} (h : cfg.bulkInclusive = true) (x : Reg) : bulkCount cfg x = x.val + 1 :=
  if_pos h

theorem bulkCount_le (cfg : Config) (x : Reg) : bulkCount cfg x ≤ 16 := by
  unfold bulkCount
  split <;> omega

/-- I after a transfer inside memory does not wrap under `BULK_I = INCREMENT`. -/
theorem bulkIndex_toNat_of_increment {cfg : Config} (hinc : cfg.bulkI = .increment) {x : Reg} {i : Word}
    (h : i.toNat + x.val + 1 ≤ 4096) : (bulkIndex cfg x i).toNat = i.toNat + x.val + 1 := by
  rw [bulkIndex_toNat, if_pos hinc, Nat.mod_eq_of_lt (by omega)]

/-! ### LD [I], Vx -/

theorem firstRegs_length (s : State) {n : Nat} (h : n ≤ 16) : (firstRegs s n).length = n := by
  simp [firstRegs, h]

theorem firstRegs_getElem (s : State) {n : Nat} (k : Reg) (hk : k.val < (firstRegs s n).length) :
    (firstRegs s n)[k.val] = s.V[k] := by
  simp [firstRegs]

theorem exec_storeRegs (x : Reg) (s : State) : exec (.storeRegs x) s = storeRegsWith decidedConfig x s := rfl

section
variable {cfg : Config} {x : Reg} {s : State} {count : Nat}

/-- A store that runs beyond memory raises `InvalidAddress` (R212). -/
theorem storeRegsWith_beyond_memory (hcount : bulkCount cfg x = count) (h : 4096 < s.I.toNat + count) :
    storeRegsWith cfg x s = .fault .invalidAddress := by
  subst hcount
  have hwrite : memWrite s.mem s.I.toNat (firstRegs s (bulkCount cfg x)) = .error .invalidAddress :=
    memWrite_error_iff.mpr ⟨by rwa [firstRegs_length s (bulkCount_le cfg x)], rfl⟩
  simp only [storeRegsWith, hwrite, raise]

/-- A store inside memory: register k goes to I + k, for as many registers as the transfer moves; every byte outside
reads as before, and I is what `BULK_I` says (R212). -/
theorem storeRegsWith_inside_memory (hcount : bulkCount cfg x = count) (hw : s.mem.wf = true)
    (h : s.I.toNat + count ≤ 4096) :
    ∃ t, storeRegsWith cfg x s = .next t ∧ t.I = bulkIndex cfg x s.I ∧
      (∀ k : Reg, k.val < count → t.mem.read (s.I.toNat + k.val) = s.V[k]) ∧
      (∀ a : Nat, a < s.I.toNat ∨ s.I.toNat + count ≤ a → t.mem.read a = s.mem.read a) ∧
      Advanced s t ∧ Unchanged [.mem, .I, .pc] s t := by
  subst hcount
  have hlen := firstRegs_length s (bulkCount_le cfg x)
  obtain ⟨m, hwrite, hinside, houtside⟩ := memWrite_inside_memory hw (hlen.symm ▸ h)
  refine ⟨((s.setMem m).setI (bulkIndex cfg x s.I)).advance, ?result, rfl, fun k hk => ?stored, fun a ha => ?outside,
    advance_of_frame ((unchanged_setMem s m).trans (unchanged_setI _ _)) (by decide)⟩
  case result => simp only [storeRegsWith, hwrite]
  case stored => exact (hinside k.val (hlen.symm ▸ hk)).trans (firstRegs_getElem s k _)
  case outside => exact houtside a (hlen.symm ▸ ha)

end

/-- Settles O43: the store at the decided configuration, where I is written its own value, and at one that
increments I. -/
theorem bulkStoreWritesRegistersInOrder : Obligations.BulkStoreWritesRegistersInOrder := by
  refine fun x s => ⟨hasOpcode_storeRegs x, fun h => ?beyond, fun hw h =>
    ⟨?decided, fun cfg hincl hinc => ?increment⟩⟩
  case beyond => exact (exec_storeRegs x s).trans (storeRegsWith_beyond_memory (bulkCount_decided x) h)
  case decided =>
    obtain ⟨t, hnext, hI, hstored, houtside, hadv, hframe⟩ := storeRegsWith_inside_memory (bulkCount_decided x) hw h
    exact ⟨t, (exec_storeRegs x s).trans hnext, fun k hk => hstored k (Nat.lt_succ_of_le hk), houtside, hadv,
      hframe.drop_same (p := .I) hI (by decide)⟩
  case increment =>
    obtain ⟨t, hnext, hI, hstored, houtside, hrest⟩ := storeRegsWith_inside_memory (bulkCount_of_inclusive hincl x) hw h
    exact ⟨t, hnext, hI ▸ bulkIndex_toNat_of_increment hinc h, fun k hk => hstored k (Nat.lt_succ_of_le hk), houtside,
      hrest⟩

/-! ### LD Vx, [I] -/

/-- The n bytes read from addr go to V0.., and the registers above them keep their values (R213). -/
theorem overwriteRegs_of_memRead {m : Memory} {addr n : Nat} {bytes : List Byte} (h : memRead m addr n = .ok bytes)
    (vs : Vector Byte 16) (k : Reg) :
    (overwriteRegs vs bytes)[k] = if k.val < n then m.read (addr + k.val) else vs[k] := by
  obtain ⟨-, rfl⟩ := memRead_ok_iff.mp h
  split <;> simp [overwriteRegs, *]

theorem exec_loadRegs (x : Reg) (s : State) : exec (.loadRegs x) s = loadRegsWith decidedConfig x s := rfl

section
variable {cfg : Config} {x : Reg} {s : State} {count : Nat}

/-- A load that runs beyond memory raises `InvalidAddress` (R213). -/
theorem loadRegsWith_beyond_memory (hcount : bulkCount cfg x = count) (h : 4096 < s.I.toNat + count) :
    loadRegsWith cfg x s = .fault .invalidAddress := by
  simp only [loadRegsWith, hcount, memRead_error_iff.mpr ⟨h, rfl⟩, raise]

/-- A load inside memory: register k receives the byte at I + k, for as many registers as the transfer moves; the others
keep their values, and I is what `BULK_I` says (R213). -/
theorem loadRegsWith_inside_memory (hcount : bulkCount cfg x = count) (h : s.I.toNat + count ≤ 4096) :
    ∃ t, loadRegsWith cfg x s = .next t ∧ t.I = bulkIndex cfg x s.I ∧
      (∀ k : Reg, t.V[k] = if k.val < count then s.mem.read (s.I.toNat + k.val) else s.V[k]) ∧
      Advanced s t ∧ Unchanged [.V, .I, .pc] s t := by
  obtain ⟨bytes, hread⟩ : ∃ bytes, memRead s.mem s.I.toNat count = .ok bytes := ⟨_, memRead_ok_iff.mpr ⟨h, rfl⟩⟩
  refine ⟨((s.setRegs (overwriteRegs s.V bytes)).setI (bulkIndex cfg x s.I)).advance, ?result, rfl,
    overwriteRegs_of_memRead hread s.V,
    advance_of_frame ((unchanged_setRegs s _).trans (unchanged_setI _ _)) (by decide)⟩
  case result => simp only [loadRegsWith, hcount, hread]

end

/-- Settles O44: the load at the decided configuration, where I is written its own value, and at one that
increments I. -/
theorem bulkLoadReadsRegistersInOrder : Obligations.BulkLoadReadsRegistersInOrder := by
  refine fun x s => ⟨hasOpcode_loadRegs x, fun h => ?beyond, fun h =>
    ⟨?decided, fun cfg hincl hinc => ?increment⟩⟩
  case beyond => exact (exec_loadRegs x s).trans (loadRegsWith_beyond_memory (bulkCount_decided x) h)
  case decided =>
    obtain ⟨t, hnext, hI, hloaded, hadv, hframe⟩ := loadRegsWith_inside_memory (bulkCount_decided x) h
    simp only [Nat.lt_add_one_iff, ← Fin.le_def] at hloaded
    exact ⟨t, (exec_loadRegs x s).trans hnext, hloaded, hadv, hframe.drop_same (p := .I) hI (by decide)⟩
  case increment =>
    obtain ⟨t, hnext, hI, hloaded, hrest⟩ := loadRegsWith_inside_memory (bulkCount_of_inclusive hincl x) h
    simp only [Nat.lt_add_one_iff, ← Fin.le_def] at hloaded
    exact ⟨t, hnext, hI ▸ bulkIndex_toNat_of_increment hinc h, hloaded, hrest⟩

end Sys2Proof.Machine
end

