-- ==== Sys2Proof/Proofs/HostCommands.lean ====
section
/-! The host's commands RUN, TIMER_TICK, KEY_DOWN, KEY_UP, FRAME and READ_STATE (60_exceptions.md R235, R245, R251 to
R256): where a run ends, and what each of the others writes and answers. -/

namespace Sys2Proof.Machine

/-! ### RUN -/

/-- The companion of `run_succ_next` and `run_succ_fault` for the third outcome of a step. -/
theorem run_succ_refused {s : State} {r : Refusal} (n : Nat) (h : step s = .refused r) :
    run (n + 1) s = (s, .refused r) := by
  simp [run, h]

/-- k steps from s complete and reach t, and the step at t raises e (R235). -/
def FailsAfter (k : Nat) (s t : State) (e : Fault) : Prop := run k s = (t, .ok) ∧ step t = .fault e

theorem failsAfter_zero_iff {s t : State} {e : Fault} : FailsAfter 0 s t e ↔ s = t ∧ step s = .fault e := by
  simp only [FailsAfter, run_zero, Prod.mk.injEq, and_true]
  exact and_congr_right fun hst => by rw [hst]

theorem failsAfter_succ_of_next {s u t : State} {e : Fault} (k : Nat) (h : step s = .next u) :
    FailsAfter (k + 1) s t e ↔ FailsAfter k u t e := by
  rw [FailsAfter, run_succ_next k h, FailsAfter]

theorem not_failsAfter_succ_of_fault {s t : State} {e e' : Fault} (k : Nat) (h : step s = .fault e') :
    ¬ FailsAfter (k + 1) s t e := by
  simp [FailsAfter, run_succ_fault k h]

theorem not_failsAfter_succ_of_refused {s t : State} {e : Fault} {r : Refusal} (k : Nat) (h : step s = .refused r) :
    ¬ FailsAfter (k + 1) s t e := by
  simp [FailsAfter, run_succ_refused k h]

/-- A run ends with an error exactly when one of its steps raises it after the steps before have completed (R235): by
induction on the budget, with the step that fails either the first one or a step of the run from the next state. -/
theorem run_eq_err_iff (n : Nat) (s t : State) (e : Fault) :
    run n s = (t, .err e) ↔ ∃ k < n, FailsAfter k s t e := by
  induction n generalizing s with
  | zero => simp
  | succ n ih =>
    rw [Nat.exists_lt_succ_left, failsAfter_zero_iff]
    cases hstep : step s with
    | next u => simp [run_succ_next n hstep, failsAfter_succ_of_next _ hstep, ih u]
    | fault e' => simp [run_succ_fault n hstep, not_failsAfter_succ_of_fault _ hstep]
    | refused r => simp [run_succ_refused n hstep, not_failsAfter_succ_of_refused _ hstep]

/-- Settles O54: the step that fails is the one `run_eq_err_iff` finds. -/
theorem runStopsAtTheFirstError : Obligations.RunStopsAtTheFirstError := run_eq_err_iff

/-! ### TIMER_TICK -/

/-- The countdown saturates at zero (R245). -/
@[simp] theorem countDown_toNat (b : Byte) : (countDown b).toNat = b.toNat - 1 := by
  unfold countDown
  split
  case isTrue hpos => exact BitVec.toNat_sub_of_le (BitVec.le_def.mpr hpos)
  case isFalse hzero => omega

/-- Settles O51: both timers count down, and the frames of the two writes compose. -/
theorem timerTickCountsDownToZero : Obligations.TimerTickCountsDownToZero := fun s =>
  ⟨timerTick s, rfl, countDown_toNat s.DT, countDown_toNat s.ST, (unchanged_setDT s _).trans (unchanged_setST _ _)⟩

/-! ### KEY_DOWN and KEY_UP -/

theorem State.setKey_getElem (s : State) (k j : Reg) (b : Bool) :
    (s.setKey k b).keys[j] = if j = k then b else s.keys[j] := by
  simp [Vector.getElem_set, Fin.ext_iff, eq_comm]

theorem unchanged_setKey (s : State) (k : Reg) (b : Bool) : Unchanged [.keys] s (s.setKey k b) := by
  intro p hp
  cases p
  case keys => simp at hp
  all_goals simp [Part.same]

/-- Settles O52: each command is one write of the key set, with the level down or up. -/
theorem keyCommandsSetOneKey : Obligations.KeyCommandsSetOneKey := fun k s =>
  ⟨⟨s.setKey k true, rfl, fun j => s.setKey_getElem k j true, unchanged_setKey s k true⟩,
    ⟨s.setKey k false, rfl, fun j => s.setKey_getElem k j false, unchanged_setKey s k false⟩⟩

/-! ### FRAME and READ_STATE -/

theorem pixelByte_toNat (p : Bool) : (pixelByte p).toNat = if p = true then 1 else 0 := by
  cases p <;> rfl

theorem frameBytes_getElem (s : State) (j : Fin 2048) : (frameBytes s)[j] = pixelByte s.fb[j] := by
  simp [frameBytes]

/-- Settles O53: both commands answer the state they are given, and FRAME's byte j is the byte of pixel j. -/
theorem readCommandsChangeNothing : Obligations.ReadCommandsChangeNothing := by
  refine fun s => ⟨rfl, frameBytes s, rfl, fun j => ?pixel⟩
  case pixel => rw [frameBytes_getElem, pixelByte_toNat]

end Sys2Proof.Machine
end

