-- ==== Sys2Proof/Proofs/LoadCommand.lean ====
section
/-! The host's command LOAD (70_reset_and_hazards.md R283): what it answers to each outcome of the range write of the
image, and the zeroes it leaves in the registers and the frame buffer. -/

namespace Sys2Proof.Machine

/-! ### The zeroes of the reset state (10_state.md R39) -/

@[simp] theorem State.reset_V_getElem (j : Reg) : State.reset.V[j] = 0 := by simp [State.reset]
@[simp] theorem State.reset_stack_getElem (k : Fin 16) : State.reset.stack[k] = 0 := by simp [State.reset]
@[simp] theorem State.reset_keys_getElem (k : Reg) : State.reset.keys[k] = false := by simp [State.reset]
@[simp] theorem State.reset_fb_getElem (j : Fin 2048) : State.reset.fb[j] = false := by simp [State.reset]

/-! ### LOAD -/

/-- LOAD fails with the error of the write of its image, and the state is the one before. -/
theorem load_of_memWrite_error {bytes : List Byte} {s : State} {e : Fault}
    (h : memWrite s.mem 0x200 bytes = .error e) : command (.load bytes) s = (s, .err e) := by
  simp only [command, load, programBase, h]

/-- LOAD whose image is written keeps that memory and the random source, and resets everything else. -/
theorem load_of_memWrite_ok {bytes : List Byte} {s : State} {m : Memory}
    (h : memWrite s.mem 0x200 bytes = .ok m) : command (.load bytes) s = (freshRegisters m s.rng, .ok) := by
  simp only [command, load, programBase, h]

/-- Settles O50: LOAD is one write of a range at 0x200, which fails as a whole where the range check does; the memory it
leaves is that of the write, and every register and pixel is that of the reset state. -/
theorem loadWritesTheImageAndResetsRegisters : Obligations.LoadWritesTheImageAndResetsRegisters := by
  refine fun bytes s hw => ⟨fun h => ?oversized, fun h => ?fits⟩
  case oversized => exact load_of_memWrite_error (memWrite_error_iff.mpr ⟨h, rfl⟩)
  case fits =>
    obtain ⟨m, hwrite, himage, houtside⟩ := memWrite_inside_memory hw h
    refine ⟨freshRegisters m s.rng, load_of_memWrite_ok hwrite, fun k hk => ?image, houtside, rfl, rfl,
      fun j => ?register, rfl, fun k => ?entry, fun k => ?key, rfl, rfl, fun j => ?pixel, rfl⟩
    case image => rw [freshRegisters_mem, himage k hk, List.getElem?_eq_getElem hk]
    case register => exact congrArg BitVec.toNat (State.reset_V_getElem j)
    case entry => exact congrArg BitVec.toNat (State.reset_stack_getElem k)
    case key => exact State.reset_keys_getElem k
    case pixel => exact State.reset_fb_getElem j

end Sys2Proof.Machine
end

