-- ==== Sys2Proof/Proofs/RoundTrip.lean ====
section
/-! The two directions of the round trip between opcodes and instructions (30_encoding.md R82 to R87): which rows
overlap, what the fields of an opcode write back under the row it fits, and which words decode to what was encoded. -/

namespace Sys2Proof

/-! ### The rows that overlap -/

/-- An opcode below 0x1000 matches the row of SYS. -/
theorem and_F000_of_lt {w : Word} (h : w.toNat < 0x1000) : w &&& 0xF000#16 = 0x0000#16 := by
  apply BitVec.eq_of_toNat_eq
  rw [and_F000_toNat, Nat.div_eq_of_lt h]
  rfl

/-- A row with the full mask matches its id alone. -/
theorem eq_id_of_match_fullMask {w id : Word} (h : w &&& 0xFFFF#16 = id) : w = id :=
  BitVec.and_allOnes.symm.trans h

/-- The opcodes 0nnn: the rows of CLS and RET stand before that of SYS, and match one opcode each (R87). -/
theorem decode_below_1000 {w : Word} (h : w.toNat < 0x1000) :
    decode w = .ok (if w = 0x00E0 then .cls else if w = 0x00EE then .ret else .sys (fieldNNN w)) := by
  by_cases hcls : w = 0x00E0
  · subst hcls; rfl
  by_cases hret : w = 0x00EE
  · subst hret; rfl
  rw [if_neg hcls, if_neg hret]
  refine (decodeWith_eq_ok_iff _ w _).mpr
    ⟨2, ⟨.sys, 0x0000, 0xF000⟩, ⟨rfl, and_F000_of_lt h, fun j e hj he => ?before⟩, rfl⟩
  case before =>
    interval_cases j <;> cases he
    · exact fun hmatch => hcls (eq_id_of_match_fullMask hmatch)
    · exact fun hmatch => hret (eq_id_of_match_fullMask hmatch)

/-- Of two rows that agree on the bits both masks keep, one is that of SYS and the other that of CLS or RET (R87). -/
theorem ops_of_overlapping_rows : ∀ d ∈ decodeTable Machine.decidedConfig, ∀ e ∈ decodeTable Machine.decidedConfig,
    d ≠ e → d.id &&& e.mask = e.id &&& d.mask →
      ((d.op = .cls ∧ e.op = .sys) ∨ (d.op = .sys ∧ e.op = .cls)) ∨
      ((d.op = .ret ∧ e.op = .sys) ∨ (d.op = .sys ∧ e.op = .ret)) := by
  decide

theorem row_of_cls_or_ret : ∀ d ∈ decodeTable Machine.decidedConfig,
    (d.op = .cls → d.mask = 0xFFFF#16 ∧ d.id = 0x00E0#16) ∧
    (d.op = .ret → d.mask = 0xFFFF#16 ∧ d.id = 0x00EE#16) := by
  decide

theorem eq_00E0_of_match {d : Descriptor} {w : Word} (hmem : d ∈ decodeTable Machine.decidedConfig) (hop : d.op = .cls)
    (hmatch : w &&& d.mask = d.id) : w = 0x00E0 := by
  obtain ⟨hmask, hid⟩ := (row_of_cls_or_ret d hmem).1 hop
  rw [hmask, hid] at hmatch
  exact eq_id_of_match_fullMask hmatch

theorem eq_00EE_of_match {d : Descriptor} {w : Word} (hmem : d ∈ decodeTable Machine.decidedConfig) (hop : d.op = .ret)
    (hmatch : w &&& d.mask = d.id) : w = 0x00EE := by
  obtain ⟨hmask, hid⟩ := (row_of_cls_or_ret d hmem).2 hop
  rw [hmask, hid] at hmatch
  exact eq_id_of_match_fullMask hmatch

/-! ### The operand fields of an opcode, written back under the high nibble and the function code of its row -/

/-- A number below 4096 and a multiple of 4096 are read back from their sum. -/
theorem eq_of_mul_4096_add_eq {a b c d : Nat} (hc : c < 4096) (hd : d < 4096) (h : a * 4096 + c = b * 4096 + d) :
    a = b ∧ c = d := by
  omega

section
variable {w : Word} {o : BitVec 4}

theorem encAddr_fieldNNN (h : w.toNat / 4096 = o.toNat) : encAddr o (fieldNNN w) = w := by
  apply BitVec.eq_of_toNat_eq
  rw [encAddr_toNat, fieldNNN_toNat]
  omega

theorem encRegImm_fields (h : w.toNat / 4096 = o.toNat) : encRegImm o (fieldX w) (fieldKK w) = w := by
  apply BitVec.eq_of_toNat_eq
  rw [encRegImm_toNat, fieldX_val, fieldKK_toNat]
  omega

theorem encRegReg_fields {f : BitVec 4} (h : w.toNat / 4096 = o.toNat ∧ w.toNat % 16 = f.toNat) :
    encRegReg o (fieldX w) (fieldY w) f = w := by
  apply BitVec.eq_of_toNat_eq
  rw [encRegReg_toNat, fieldX_val, fieldY_val]
  omega

theorem encReg_fieldX {ff : Byte} (h : w.toNat / 4096 = o.toNat ∧ w.toNat % 256 = ff.toNat) :
    encReg o (fieldX w) ff = w := by
  apply BitVec.eq_of_toNat_eq
  rw [encReg_toNat, fieldX_val]
  omega

/-- The high nibble of an opcode that fits a row with the mask 0xF000. -/
theorem highNibble_of_fits_F000 {op : Op} {id : Word} (h : Descriptor.fits ⟨op, id, 0xF000#16⟩ w = true)
    (hid : id.toNat = o.toNat * 4096) : w.toNat / 4096 = o.toNat :=
  Nat.eq_of_mul_eq_mul_right (by decide) (((fits_F000 op id w).mp h).trans hid)

/-- The high and the low nibble of an opcode that fits a row with the mask 0xF00F. -/
theorem nibbles_of_fits_F00F {op : Op} {id : Word} {f : BitVec 4} (h : Descriptor.fits ⟨op, id, 0xF00F#16⟩ w = true)
    (hid : id.toNat = o.toNat * 4096 + f.toNat) : w.toNat / 4096 = o.toNat ∧ w.toNat % 16 = f.toNat :=
  eq_of_mul_4096_add_eq (by omega) (by omega) (((fits_F00F op id w).mp h).trans hid)

/-- The high nibble and the low byte of an opcode that fits a row with the mask 0xF0FF. -/
theorem nibble_and_byte_of_fits_F0FF {op : Op} {id : Word} {ff : Byte}
    (h : Descriptor.fits ⟨op, id, 0xF0FF#16⟩ w = true) (hid : id.toNat = o.toNat * 4096 + ff.toNat) :
    w.toNat / 4096 = o.toNat ∧ w.toNat % 256 = ff.toNat :=
  eq_of_mul_4096_add_eq (by omega) (by omega) (((fits_F0FF op id w).mp h).trans hid)

end

/-- Row by row: an opcode that fits a row is the encoding of what the row reads from it (R82, R84). -/
theorem encode_instr_of_fits {d : Descriptor} (hmem : d ∈ decodeTable Machine.decidedConfig) {w : Word}
    (h : d.fits w = true) : encode (d.op.instr w) = w := by
  obtain ⟨op, id, mask⟩ := d
  cases op
  all_goals
    simp [decodeTable, tableUpper, tableLower, skipRegMask, Machine.decidedConfig] at hmem
    obtain ⟨rfl, rfl⟩ := hmem
  case cls | ret => exact (BitVec.eq_of_toNat_eq ((fits_FFFF _ _ w).mp h)).symm
  case sys | jp | call | ldI | jpV0 => exact encAddr_fieldNNN (highNibble_of_fits_F000 h rfl)
  case seImm | sneImm | ldImm | addImm | rnd => exact encRegImm_fields (highNibble_of_fits_F000 h rfl)
  case drw => exact encRegReg_fields ⟨highNibble_of_fits_F000 h rfl, (fieldN_val w).symm⟩
  case seReg | ldReg | orReg | andReg | xorReg | addReg | sub | shr | subn | shl | sneReg =>
    exact encRegReg_fields (nibbles_of_fits_F00F h rfl)
  case skp | sknp | ldVxDT | ldVxK | ldDTVx | ldSTVx | addI | ldF | ldB | storeRegs | loadRegs =>
    exact encReg_fieldX (nibble_and_byte_of_fits_F0FF h rfl)

/-! ### Decode of encode -/

/-- The word of every instruction fits the instruction's own row. -/
theorem rowFits : ∀ i : Instr, Laws.RowFits.Statement i
  | .cls => Laws.RowFits.cls
  | .ret => Laws.RowFits.ret
  | .sys nnn => Laws.RowFits.sys nnn
  | .jp nnn => Laws.RowFits.jp nnn
  | .call nnn => Laws.RowFits.call nnn
  | .seImm x kk => Laws.RowFits.seImm x kk
  | .sneImm x kk => Laws.RowFits.sneImm x kk
  | .seReg x y => Laws.RowFits.seReg x y
  | .ldImm x kk => Laws.RowFits.ldImm x kk
  | .addImm x kk => Laws.RowFits.addImm x kk
  | .ldReg x y => Laws.RowFits.ldReg x y
  | .orReg x y => Laws.RowFits.orReg x y
  | .andReg x y => Laws.RowFits.andReg x y
  | .xorReg x y => Laws.RowFits.xorReg x y
  | .addReg x y => Laws.RowFits.addReg x y
  | .sub x y => Laws.RowFits.sub x y
  | .shr x y => Laws.RowFits.shr x y
  | .subn x y => Laws.RowFits.subn x y
  | .shl x y => Laws.RowFits.shl x y
  | .sneReg x y => Laws.RowFits.sneReg x y
  | .ldI nnn => Laws.RowFits.ldI nnn
  | .jpV0 nnn => Laws.RowFits.jpV0 nnn
  | .rnd x kk => Laws.RowFits.rnd x kk
  | .drw x y n => Laws.RowFits.drw x y n
  | .skp x => Laws.RowFits.skp x
  | .sknp x => Laws.RowFits.sknp x
  | .ldVxDT x => Laws.RowFits.ldVxDT x
  | .ldVxK x => Laws.RowFits.ldVxK x
  | .ldDTVx x => Laws.RowFits.ldDTVx x
  | .ldSTVx x => Laws.RowFits.ldSTVx x
  | .addI x => Laws.RowFits.addI x
  | .ldF x => Laws.RowFits.ldF x
  | .ldB x => Laws.RowFits.ldB x
  | .storeRegs x => Laws.RowFits.storeRegs x
  | .loadRegs x => Laws.RowFits.loadRegs x

theorem encAddr_injective (o : BitVec 4) : Function.Injective (encAddr o) :=
  Function.LeftInverse.injective (fieldNNN_encAddr o)

/-- Every operand of SYS but those of the words of CLS and RET is read back (R87). -/
theorem decode_encode_sys {nnn : Addr12} (h : sysOperandTaken nnn = false) :
    decode (encode (.sys nnn)) = .ok (.sys nnn) := by
  obtain ⟨hcls, hret⟩ : nnn ≠ 0x0E0#12 ∧ nnn ≠ 0x0EE#12 := by simpa [sysOperandTaken] using h
  have hword : encode (.sys nnn) = encAddr 0x0 nnn := rfl
  have hcls' : encAddr 0x0 nnn ≠ 0x00E0 := (encAddr_injective 0x0).ne hcls
  have hret' : encAddr 0x0 nnn ≠ 0x00EE := (encAddr_injective 0x0).ne hret
  have hbelow : (encAddr 0x0 nnn).toNat < 0x1000 := by
    rw [encAddr_toNat]
    exact (Nat.zero_add _).trans_lt nnn.isLt
  rw [hword, decode_below_1000 hbelow, if_neg hcls', if_neg hret', fieldNNN_encAddr]

/-- Every well-formed instruction is read back from its word. -/
theorem decode_encode {i : Instr} (h : i.wf = true) : decode (encode i) = .ok i := by
  cases i
  case cls | ret => rfl
  case sys nnn => exact decode_encode_sys (by simpa [Instr.wf] using h)
  all_goals exact decode_encode_of_rowFits (rowFits _) (by simp [Instr.op])

/-- The two bytes of an opcode, at the head of any bytes, decode as the opcode does. -/
theorem decodeBytes_bytesOfOpcode {w : Word} {i : Instr} (h : decode w = .ok i) (rest : List Byte) :
    decodeBytes (bytesOfOpcode w ++ rest) = .ok (i, rest) := by
  simp [bytesOfOpcode, decodeBytes, opcodeOfBytes_bytesOfOpcode, h]

/-! ### Encode of decode -/

theorem fits_of_decode {w : Word} {i : Instr} (h : decode w = .ok i) :
    ∃ d ∈ decodeTable Machine.decidedConfig, d.fits w = true ∧ i = d.op.instr w := by
  obtain ⟨k, d, ⟨hrow, hmatch, -⟩, hi⟩ := (decodeWith_eq_ok_iff _ w i).mp h
  exact ⟨d, List.mem_of_getElem? hrow, (fits_iff d w).mpr hmatch, hi⟩

/-- An opcode decodes to something exactly when it fits a row. -/
theorem exists_decode_iff (w : Word) :
    (∃ i, decode w = .ok i) ↔ ∃ d ∈ decodeTable Machine.decidedConfig, d.fits w = true := by
  constructor
  · rintro ⟨i, h⟩
    obtain ⟨d, hmem, hfit, -⟩ := fits_of_decode h
    exact ⟨d, hmem, hfit⟩
  · intro h
    obtain ⟨d, hd⟩ := Option.isSome_iff_exists.mp (List.find?_isSome.mpr h)
    exact ⟨d.op.instr w, by simp only [decode, decodeWith, hd]⟩

theorem encode_of_decode {w : Word} {i : Instr} (h : decode w = .ok i) : encode i = w := by
  obtain ⟨d, hmem, hfit, rfl⟩ := fits_of_decode h
  exact encode_instr_of_fits hmem hfit

/-- What decodes is well formed: an opcode that decodes to SYS is neither that of CLS nor that of RET. -/
theorem wf_of_decode {w : Word} {i : Instr} (h : decode w = .ok i) : i.wf = true := by
  cases i
  case sys nnn =>
    have hw := encode_of_decode h
    subst hw
    by_contra htaken
    simp only [Instr.wf, sysOperandTaken, Bool.not_eq_true', Bool.not_eq_false, Bool.or_eq_true,
      beq_iff_eq] at htaken
    obtain rfl | rfl := htaken <;> cases h
  all_goals rfl

end Sys2Proof

namespace Sys2Proof.Machine

/-- Settles O1: each opcode written out is decoded by running the scan of the table. -/
theorem decodeReadsWrittenWords : Obligations.DecodeReadsWrittenWords := by
  unfold Obligations.DecodeReadsWrittenWords
  decide

/-- Settles O2: only SYS shares its row's words with other rows, and its two shared words are shut out; the bytes of the
word compose to it. -/
theorem decodeOfEncodeIsTheInstruction : Obligations.DecodeOfEncodeIsTheInstruction :=
  fun _ hwf => ⟨decode_encode hwf, decodeBytes_bytesOfOpcode (decode_encode hwf)⟩

/-- Settles O3: the row that decodes the opcode writes it back, and SYS is not read from the words of CLS and RET. -/
theorem encodeOfDecodeIsTheOpcode : Obligations.EncodeOfDecodeIsTheOpcode :=
  fun _ _ h => ⟨wf_of_decode h, encode_of_decode h⟩

/-- Settles O5: two rows that match one opcode agree on the bits both masks keep, which leaves SYS beside CLS or RET;
the mask of CLS and of RET is full, so the opcode is the row's. -/
theorem onlySysOverlapsClsAndRet : Obligations.OnlySysOverlapsClsAndRet := by
  refine ⟨fun w d e hd he hne hdmatch hematch => ?overlap, fun w h => decode_below_1000 h⟩
  case overlap =>
    have hagree := id_and_mask_eq_of_fits ((fits_iff d w).mpr hdmatch) ((fits_iff e w).mpr hematch)
    rcases ops_of_overlapping_rows d hd e he hne hagree with hops | hops
    · refine .inl ⟨?_, hops⟩
      rcases hops with ⟨hcls, -⟩ | ⟨-, hcls⟩
      · exact eq_00E0_of_match hd hcls hdmatch
      · exact eq_00E0_of_match he hcls hematch
    · refine .inr ⟨?_, hops⟩
      rcases hops with ⟨hret, -⟩ | ⟨-, hret⟩
      · exact eq_00EE_of_match hd hret hdmatch
      · exact eq_00EE_of_match he hret hematch

end Sys2Proof.Machine
end

