-- ==== Sys2Proof/Proofs/IllegalOpcodes.lean ====
section
/-! The opcodes that decode are those outside the illegal spaces (30_encoding.md R88). -/

namespace Sys2Proof.Machine

/-- What each row checks beyond the high nibble, and that its id is in no illegal space (30_encoding.md R84, R88). -/
theorem row_checks : ∀ d ∈ decodeTable decidedConfig, ¬ IllegalOpcode d.id.toNat ∧
    ((d.mask = 0xFFFF#16) ∨
     (d.mask = 0xF000#16 ∧ d.id.toNat / 4096 ∉ [0x5, 0x8, 0x9, 0xE, 0xF]) ∨
     (d.mask = 0xF00F#16 ∧ d.id.toNat / 4096 ∉ [0xE, 0xF]) ∨
     (d.mask = 0xF0FF#16)) := by
  unfold IllegalOpcode
  decide

/-- Whether an opcode is illegal depends on its high nibble and, in the spaces of R88, on the bits that the rows there
check. -/
theorem not_illegalOpcode_of_fits {d : Descriptor} (hmem : d ∈ decodeTable decidedConfig) {w : Word}
    (hfit : d.fits w = true) : ¬ IllegalOpcode w.toNat := by
  obtain ⟨hid, hcheck⟩ := row_checks d hmem
  have hmatch := (fits_iff d w).mp hfit
  have hspace := highNibble_eq_of_match hmem hmatch
  rcases hcheck with hmask | ⟨hmask, hother⟩ | ⟨hmask, hother⟩ | hmask
  · rw [hmask] at hmatch
    rwa [eq_id_of_match_fullMask hmatch]
  · simp only [List.mem_cons, List.not_mem_nil, or_false, not_or, hspace] at hother
    simp only [IllegalOpcode, hother, false_and, or_false, not_false_eq_true]
  · have hlow : d.id.toNat % 16 = w.toNat % 16 := by
      rw [← hmatch, hmask, and_F00F_toNat]
      omega
    simp only [List.mem_cons, List.not_mem_nil, or_false, not_or, hspace] at hother
    simpa only [IllegalOpcode, hspace, hlow, hother, false_and, or_false] using hid
  · have hlow : d.id.toNat % 256 = w.toNat % 256 := by
      rw [← hmatch, hmask, and_F0FF_toNat]
      omega
    have hlow' : d.id.toNat % 16 = w.toNat % 16 := by omega
    simpa only [IllegalOpcode, hspace, hlow, hlow'] using hid

/-- The rows of the spaces that check the high nibble alone. -/
theorem row_of_free_space : ∀ h : Fin 16, h.val ∉ [0x5, 0x8, 0x9, 0xE, 0xF] →
    ∃ d ∈ decodeTable decidedConfig, d.mask = 0xF000#16 ∧ d.id.toNat = h.val * 4096 := by
  decide

/-- The rows of the spaces that check the low nibble. -/
theorem row_of_nibble_space : ∀ h f : Fin 16,
    ((h.val = 0x5 ∨ h.val = 0x9) ∧ f.val = 0 ∨ h.val = 0x8 ∧ f.val ∉ [0x8, 0x9, 0xA, 0xB, 0xC, 0xD, 0xF]) →
    ∃ d ∈ decodeTable decidedConfig, d.mask = 0xF00F#16 ∧ d.id.toNat = h.val * 4096 + f.val := by
  decide

/-- The rows of the two spaces that check the low byte. -/
theorem row_of_byte_space :
    (∀ b ∈ [0x9E, 0xA1], ∃ d ∈ decodeTable decidedConfig, d.mask = 0xF0FF#16 ∧ d.id.toNat = 0xE * 4096 + b) ∧
    (∀ b ∈ [0x07, 0x0A, 0x15, 0x18, 0x1E, 0x29, 0x33, 0x55, 0x65],
      ∃ d ∈ decodeTable decidedConfig, d.mask = 0xF0FF#16 ∧ d.id.toNat = 0xF * 4096 + b) := by
  decide

/-- Every opcode outside the illegal spaces fits a row: the row of its space, and of its low nibble or low byte where
the space checks one. -/
theorem fits_of_not_illegalOpcode {w : Word} (h : ¬ IllegalOpcode w.toNat) :
    ∃ d ∈ decodeTable decidedConfig, d.fits w = true := by
  have hspace : w.toNat / 4096 < 16 := by omega
  have hlow : w.toNat % 16 < 16 := by omega
  simp only [IllegalOpcode, not_or, not_and, not_not] at h
  obtain ⟨h5, h8, h9, hE, hF⟩ := h
  by_cases hfree : w.toNat / 4096 ∉ [0x5, 0x8, 0x9, 0xE, 0xF]
  · obtain ⟨⟨op, id, mask⟩, hmem, rfl, hid⟩ := row_of_free_space ⟨_, hspace⟩ hfree
    exact ⟨_, hmem, (fits_F000 op id w).mpr hid.symm⟩
  by_cases hnibble : (w.toNat / 4096 = 0x5 ∨ w.toNat / 4096 = 0x9) ∧ w.toNat % 16 = 0 ∨
      w.toNat / 4096 = 0x8 ∧ w.toNat % 16 ∉ [0x8, 0x9, 0xA, 0xB, 0xC, 0xD, 0xF]
  · obtain ⟨⟨op, id, mask⟩, hmem, rfl, hid⟩ := row_of_nibble_space ⟨_, hspace⟩ ⟨_, hlow⟩ hnibble
    exact ⟨_, hmem, (fits_F00F op id w).mpr hid.symm⟩
  obtain ⟨⟨op, id, mask⟩, hmem, rfl, hid⟩ : ∃ d ∈ decodeTable decidedConfig, d.mask = 0xF0FF#16 ∧
      d.id.toNat = w.toNat / 4096 * 4096 + w.toNat % 256 := by
    obtain heq | heq : w.toNat / 4096 = 0xE ∨ w.toNat / 4096 = 0xF := by
      simp only [List.mem_cons, List.not_mem_nil, or_false, not_not] at hfree
      tauto
    · exact heq ▸ row_of_byte_space.1 _ (hE heq)
    · exact heq ▸ row_of_byte_space.2 _ (hF heq)
  exact ⟨_, hmem, (fits_F0FF op id w).mpr hid.symm⟩

/-- An opcode decodes exactly when it is in none of the illegal spaces (R88). -/
theorem exists_decode_iff_not_illegal (op : Word) : (∃ i, decode op = .ok i) ↔ ¬ IllegalOpcode op.toNat := by
  rw [exists_decode_iff]
  exact ⟨fun ⟨_, hmem, hfit⟩ => not_illegalOpcode_of_fits hmem hfit, fits_of_not_illegalOpcode⟩

/-- An illegal opcode is rejected. -/
theorem decode_of_illegal {op : Word} (h : IllegalOpcode op.toNat) : ∃ r, decode op = .error r := by
  cases hd : decode op with
  | ok i => exact absurd h ((exists_decode_iff_not_illegal op).mp ⟨i, hd⟩)
  | error r => exact ⟨r, rfl⟩

/-- Settles O6: the illegal spaces are what the rows of the table leave over, and a rejected opcode makes the step raise
the error of the decoder. -/
theorem illegalOpcodesAreTheListedSpaces : Obligations.IllegalOpcodesAreTheListedSpaces := by
  refine ⟨exists_decode_iff_not_illegal, fun s op hpc hop hillegal => ?fault⟩
  case fault =>
    obtain ⟨r, hr⟩ := decode_of_illegal hillegal
    exact step_of_decode_error (fetch_of_opcodeAtPc (by omega) hop) hr

end Sys2Proof.Machine
end

