-- ==== Sys2Proof/Proofs/Effects.lean ====
section
/-! What an instruction answers, said once: the error that `errorOf` lists, or a next state that is one of a few shapes
(`Effect`). Every statement about all the instructions is read from the shapes. -/

namespace Sys2Proof.Machine

/-! ### The call stack by depth -/

/-- The state after a push of `v` at depth k (10_state.md R28). -/
def State.pushed (s : State) (k : Fin 16) (v : Word) : State := { s with stack := s.stack.set k v, sp := k.succ }

/-- The state after a pop at depth k + 1 (10_state.md R29). -/
def State.popped (s : State) (k : Fin 16) : State := { s with sp := k.castSucc }

theorem push_of_castSucc {s : State} {k : Fin 16} (h : s.sp = k.castSucc) (v : Word) :
    push s v = .ok (s.pushed k v) := by
  simp [push, h, State.pushed, Fin.succ]

theorem pop_of_succ {s : State} {k : Fin 16} (h : s.sp = k.succ) : pop s = .ok (s.stack[k], s.popped k) := by
  simp [pop, h, State.popped, Fin.ext_iff]

theorem pop_of_zero {s : State} (h : s.sp = 0) : pop s = .error .stackUnderflow := by
  simp [pop, h]

theorem unchanged_pushed (s : State) (k : Fin 16) (v : Word) : Unchanged [.stack, .sp] s (s.pushed k v) := by
  intro p hp
  cases p
  case stack | sp => simp at hp
  all_goals simp [Part.same, State.pushed]

theorem unchanged_popped (s : State) (k : Fin 16) : Unchanged [.sp] s (s.popped k) := by
  intro p hp
  cases p
  case sp => simp at hp
  all_goals simp [Part.same, State.popped]

theorem exec_ret (s : State) : exec .ret s = execRet s := rfl

theorem exec_ret_of_zero {s : State} (h : s.sp = 0) : exec .ret s = .fault .stackUnderflow := by
  simp only [exec_ret, execRet, pop_of_zero h, raise]

theorem exec_ret_of_succ {s : State} {k : Fin 16} (h : s.sp = k.succ) :
    exec .ret s = .next ((s.popped k).setPc (s.stack[k] + 2)) := by
  simp only [exec_ret, execRet, pop_of_succ h]

theorem exec_call_of_castSucc {s : State} {k : Fin 16} (h : s.sp = k.castSucc) (nnn : Addr12) :
    exec (.call nnn) s = .next ((s.pushed k s.pc).setPc (zextAddr nnn)) :=
  exec_call_of_push_ok (push_of_castSucc h s.pc) nnn

/-! ### The shapes of a completed instruction -/

/-- `Effect s i t`: t is the state that instruction i leaves where it completes from s, as far as statements about all
the instructions need to know it. The instructions with one shape stand under one constructor. -/
inductive Effect (s : State) : Instr → State → Prop
  /-- A result in the destination register (42_alu.md R130). -/
  | result {i : Instr} (x : Reg) (r : Byte) (hdest : destination i = some x) : Effect s i (s.setV x r).advance
  /-- A result in the destination register, and then a flag (R130). -/
  | resultAndFlag {i : Instr} (x : Reg) (r flag : Byte) (hdest : destination i = some x)
      (hflag : writesFlag i = true) : Effect s i ((s.setV x r).setV VF flag).advance
  /-- A skip (41_skip.md R120, 45_input_timers.md R190, R191). -/
  | skip {i : Instr} (c : Bool) (hskip : pcBound i = 0x1002) : Effect s i (s.skipIf c)
  | rnd (x : Reg) (kk r : Byte) : Effect s (.rnd x kk) (s.drew.setV x r).advance
  | keyWait (x : Reg) : Effect s (.ldVxK x) s
  | sys (nnn : Addr12) : Effect s (.sys nnn) s.advance
  | jp (nnn : Addr12) : Effect s (.jp nnn) (s.setPc (zextAddr nnn))
  | jpV0 (nnn : Addr12) : Effect s (.jpV0 nnn) (s.setPc (zextAddr nnn + zextByte s.V[(0 : Reg)]))
  | call (nnn : Addr12) (k : Fin 16) (hsp : s.sp = k.castSucc) :
      Effect s (.call nnn) ((s.pushed k s.pc).setPc (zextAddr nnn))
  | ret (k : Fin 16) (hsp : s.sp = k.succ) : Effect s .ret ((s.popped k).setPc (s.stack[k] + 2))
  | cls : Effect s .cls (s.setFb (Vector.replicate 2048 false)).advance
  | drw (x y : Reg) (n : Height) (flag : Byte) (f : FrameBuffer) :
      Effect s (.drw x y n) ((s.setV VF flag).setFb f).advance
  | ldI (nnn : Addr12) : Effect s (.ldI nnn) (s.setI (zextAddr nnn)).advance
  | addI (x : Reg) : Effect s (.addI x) (s.setI (s.I + zextByte s.V[x])).advance
  | ldF (x : Reg) (hdigit : s.V[x].toNat ≤ 15) : Effect s (.ldF x) (s.setI (glyphAddress s.V[x])).advance
  | ldDTVx (x : Reg) : Effect s (.ldDTVx x) (s.setDT s.V[x]).advance
  | ldSTVx (x : Reg) : Effect s (.ldSTVx x) (s.setST s.V[x]).advance
  | ldB (x : Reg) (m : Memory) (hwrite : memWrite s.mem s.I.toNat (bcdDigits s.V[x]) = .ok m) :
      Effect s (.ldB x) (s.setMem m).advance
  | storeRegs (x : Reg) (m : Memory) (hwrite : memWrite s.mem s.I.toNat (firstRegs s (x.val + 1)) = .ok m) :
      Effect s (.storeRegs x) (s.setMem m).advance
  | loadRegs (x : Reg) (vs : Vector Byte 16) (hkept : ∀ j : Reg, x < j → vs[j] = s.V[j]) :
      Effect s (.loadRegs x) (s.setRegs vs).advance

/-- Instruction i raises in s the error that the spec lists for it, or completes with its effect where none is
listed. -/
def Answers (i : Instr) (s : State) : Prop :=
  (∃ e, errorOf i s = some e ∧ exec i s = .fault e) ∨ (errorOf i s = none ∧ ∃ t, exec i s = .next t ∧ Effect s i t)

section
variable {i : Instr} {s : State}

theorem answers_of_next {t : State} (hnone : errorOf i s = none) (hexec : exec i s = .next t) (h : Effect s i t) :
    Answers i s :=
  .inr ⟨hnone, t, hexec, h⟩

/-- The instructions with one listed error, raised under the condition p. -/
theorem answers_of_guard {p : Prop} [Decidable p] {e : Fault} (hguard : errorOf i s = if p then some e else none)
    (hfault : p → exec i s = .fault e) (hnext : ¬ p → ∃ t, exec i s = .next t ∧ Effect s i t) : Answers i s := by
  by_cases hp : p
  · exact .inl ⟨e, hguard.trans (if_pos hp), hfault hp⟩
  · exact .inr ⟨hguard.trans (if_neg hp), hnext hp⟩

end

/-! ### The instructions with a listed error -/

section
variable (s : State)

theorem answers_ret : Answers .ret s := by
  refine answers_of_guard rfl (fun hsp => exec_ret_of_zero (Fin.ext hsp)) (fun hsp => ?deep)
  case deep =>
    obtain ⟨k, hk⟩ := Fin.exists_succ_eq_of_ne_zero (mt (congrArg Fin.val) hsp)
    exact ⟨_, exec_ret_of_succ hk.symm, .ret k hk.symm⟩

theorem answers_call (nnn : Addr12) : Answers (.call nnn) s := by
  refine answers_of_guard rfl (fun hsp => exec_call_of_push_error (push_full hsp s.pc) nnn) (fun hsp => ?room)
  case room =>
    obtain ⟨k, hk⟩ := (Fin.eq_castSucc_or_eq_last s.sp).resolve_right (mt (congrArg Fin.val) hsp)
    exact ⟨_, exec_call_of_castSucc hk nnn, .call nnn k hk⟩

/-- A byte up to 15 names a key. -/
theorem keyIsDown_up_to_15 {b : Byte} (h : ¬ 15 < b.toNat) : ∃ down, keyIsDown s b = .ok down :=
  ⟨_, keyIsDown_reg s (k := ⟨b.toNat, by omega⟩) rfl⟩

theorem answers_skp (x : Reg) : Answers (.skp x) s := by
  refine answers_of_guard rfl (fun h => exec_skp_of_keyIsDown_error (keyIsDown_above_15 s h)) (fun h => ?key)
  case key =>
    obtain ⟨down, hdown⟩ := keyIsDown_up_to_15 s h
    exact ⟨_, exec_skp_of_keyIsDown_ok hdown, .skip down rfl⟩

theorem answers_sknp (x : Reg) : Answers (.sknp x) s := by
  refine answers_of_guard rfl (fun h => exec_sknp_of_keyIsDown_error (keyIsDown_above_15 s h)) (fun h => ?key)
  case key =>
    obtain ⟨down, hdown⟩ := keyIsDown_up_to_15 s h
    exact ⟨_, exec_sknp_of_keyIsDown_ok hdown, .skip (!down) rfl⟩

theorem answers_ldVxK (x : Reg) : Answers (.ldVxK x) s := by
  cases hkey : firstKeyDown s with
  | none => exact answers_of_next rfl (exec_ldVxK_of_none hkey x) (.keyWait x)
  | some k => exact answers_of_next rfl (exec_ldVxK_of_some hkey x) (.result x _ rfl)

theorem answers_ldF (x : Reg) : Answers (.ldF x) s :=
  answers_of_guard rfl exec_ldF_above_15 fun h =>
    ⟨_, exec_ldF_of_digit (Nat.not_lt.mp h), .ldF x (Nat.not_lt.mp h)⟩

theorem answers_drw (x y : Reg) (n : Height) : Answers (.drw x y n) s :=
  answers_of_guard rfl (fun h => exec_drw_beyond_memory h x y) fun h =>
    ⟨_, exec_drw_inside_memory (Nat.not_lt.mp h) x y, .drw x y n _ _⟩

theorem answers_ldB (x : Reg) : Answers (.ldB x) s := by
  refine answers_of_guard rfl (fun h => ?beyond) (fun h => ?inside)
  case beyond => exact exec_ldB_of_memWrite_error (memWrite_error_iff.mpr ⟨h, rfl⟩)
  case inside =>
    have hwrite : memWrite s.mem s.I.toNat (bcdDigits s.V[x]) = .ok _ :=
      memWrite_ok_iff.mpr ⟨Nat.not_lt.mp h, rfl⟩
    exact ⟨_, exec_ldB_of_memWrite_ok hwrite, .ldB x _ hwrite⟩

/-- The store at the decided configuration, where I is written its own value (46_memory_ops.md R212). -/
theorem exec_storeRegs_of_memWrite_ok {x : Reg} {m : Memory}
    (h : memWrite s.mem s.I.toNat (firstRegs s (x.val + 1)) = .ok m) :
    exec (.storeRegs x) s = .next (s.setMem m).advance := by
  simp only [exec_storeRegs, storeRegsWith, bulkCount_decided, h]
  rfl

theorem answers_storeRegs (x : Reg) : Answers (.storeRegs x) s := by
  refine answers_of_guard rfl (fun h => storeRegsWith_beyond_memory (bulkCount_decided x) h) (fun h => ?inside)
  case inside =>
    have hlen := firstRegs_length s (Nat.succ_le_of_lt x.isLt)
    have hwrite : memWrite s.mem s.I.toNat (firstRegs s (x.val + 1)) = .ok _ :=
      memWrite_ok_iff.mpr ⟨hlen.symm ▸ Nat.not_lt.mp h, rfl⟩
    exact ⟨_, exec_storeRegs_of_memWrite_ok s hwrite, .storeRegs x _ hwrite⟩

theorem exec_loadRegs_of_memRead_ok {x : Reg} {bytes : List Byte}
    (h : memRead s.mem s.I.toNat (x.val + 1) = .ok bytes) :
    exec (.loadRegs x) s = .next (s.setRegs (overwriteRegs s.V bytes)).advance := by
  simp only [exec_loadRegs, loadRegsWith, bulkCount_decided, h]
  rfl

theorem answers_loadRegs (x : Reg) : Answers (.loadRegs x) s := by
  refine answers_of_guard rfl (fun h => loadRegsWith_beyond_memory (bulkCount_decided x) h) (fun h => ?inside)
  case inside =>
    have hread := memRead_ok_iff (m := s.mem) (n := x.val + 1).mpr ⟨Nat.not_lt.mp h, rfl⟩
    refine ⟨_, exec_loadRegs_of_memRead_ok s hread, .loadRegs x _ fun j hj => ?_⟩
    rw [overwriteRegs_of_memRead hread, if_neg (Nat.not_lt.mpr (Nat.succ_le_of_lt hj))]

end

theorem exec_sys (nnn : Addr12) (s : State) : exec (.sys nnn) s = .next s.advance := rfl

theorem exec_rnd (x : Reg) (kk : Byte) (s : State) :
    exec (.rnd x kk) s = rndWith (Config.randByte s.rng) x kk s := rfl

/-- Every instruction, in every state, answers with the error listed for it or with its effect. -/
theorem exec_answers (i : Instr) (s : State) : Answers i s := by
  cases i with
  | cls => exact answers_of_next rfl (exec_cls s) .cls
  | ret => exact answers_ret s
  | sys nnn => exact answers_of_next rfl (exec_sys nnn s) (.sys nnn)
  | jp nnn => exact answers_of_next rfl (exec_jp nnn s) (.jp nnn)
  | call nnn => exact answers_call s nnn
  | seImm x kk => exact answers_of_next rfl (exec_seImm x kk s) (.skip _ rfl)
  | sneImm x kk => exact answers_of_next rfl (exec_sneImm x kk s) (.skip _ rfl)
  | seReg x y => exact answers_of_next rfl (exec_seReg x y s) (.skip _ rfl)
  | ldImm x kk => exact answers_of_next rfl (exec_ldImm x kk s) (.result x _ rfl)
  | addImm x kk => exact answers_of_next rfl (exec_addImm x kk s) (.result x _ rfl)
  | ldReg x y => exact answers_of_next rfl (exec_ldReg x y s) (.result x _ rfl)
  | orReg x y => exact answers_of_next rfl (exec_orReg x y s) (.result x _ rfl)
  | andReg x y => exact answers_of_next rfl (exec_andReg x y s) (.result x _ rfl)
  | xorReg x y => exact answers_of_next rfl (exec_xorReg x y s) (.result x _ rfl)
  | addReg x y => exact answers_of_next rfl (exec_addReg x y s) (.resultAndFlag x _ _ rfl rfl)
  | sub x y => exact answers_of_next rfl (exec_sub x y s) (.resultAndFlag x _ _ rfl rfl)
  | shr x y => exact answers_of_next rfl (exec_shr x y s) (.resultAndFlag x _ _ rfl rfl)
  | subn x y => exact answers_of_next rfl (exec_subn x y s) (.resultAndFlag x _ _ rfl rfl)
  | shl x y => exact answers_of_next rfl (exec_shl x y s) (.resultAndFlag x _ _ rfl rfl)
  | sneReg x y => exact answers_of_next rfl (exec_sneReg x y s) (.skip _ rfl)
  | ldI nnn => exact answers_of_next rfl (exec_ldI nnn s) (.ldI nnn)
  | jpV0 nnn => exact answers_of_next rfl (exec_jpV0 nnn s) (.jpV0 nnn)
  | rnd x kk => exact answers_of_next rfl (exec_rnd x kk s) (.rnd x kk _)
  | drw x y n => exact answers_drw s x y n
  | skp x => exact answers_skp s x
  | sknp x => exact answers_sknp s x
  | ldVxDT x => exact answers_of_next rfl (exec_ldVxDT x s) (.result x _ rfl)
  | ldVxK x => exact answers_ldVxK s x
  | ldDTVx x => exact answers_of_next rfl (exec_ldDTVx x s) (.ldDTVx x)
  | ldSTVx x => exact answers_of_next rfl (exec_ldSTVx x s) (.ldSTVx x)
  | addI x => exact answers_of_next rfl (exec_addI x s) (.addI x)
  | ldF x => exact answers_ldF s x
  | ldB x => exact answers_ldB s x
  | storeRegs x => exact answers_storeRegs s x
  | loadRegs x => exact answers_loadRegs s x

/-- The inversion of a completed instruction. -/
theorem effect_of_exec {i : Instr} {s t : State} (h : exec i s = .next t) : Effect s i t := by
  rcases exec_answers i s with ⟨e, -, hfault⟩ | ⟨-, u, hnext, heffect⟩
  · rw [hfault] at h; cases h
  · rw [hnext] at h; cases h; exact heffect

/-! ### The listed errors -/

/-- Settles O8: the error of an instruction that answers with one is the listed one. -/
theorem execRaisesExactlyTheListedErrors : Obligations.ExecRaisesExactlyTheListedErrors := by
  intro i s e
  rcases exec_answers i s with ⟨e', hlisted, hfault⟩ | ⟨hnone, t, hnext, -⟩
  · simp [hfault, hlisted]
  · simp [hnext, hnone]

/-- Settles O9: where no error is listed the instruction answers with its effect. -/
theorem execCompletesWhereNoErrorIsListed : Obligations.ExecCompletesWhereNoErrorIsListed := by
  intro i s hnone
  rcases exec_answers i s with ⟨e, hlisted, -⟩ | ⟨-, t, hnext, -⟩
  · rw [hnone] at hlisted; cases hlisted
  · exact ⟨t, hnext⟩

end Sys2Proof.Machine
end

