-- ==== Sys2Proof/Proofs/WholeMachine.lean ====
section
/-! What the shapes of a completed instruction say of the whole machine: its frame, the registers and the index it
changes, and that it keeps the key set. -/

namespace Sys2Proof.Machine

/-! ### The frame -/

theorem Unchanged.mono {but but' : List Part} {s t : State} (h : Unchanged but s t) (hsub : but ⊆ but') :
    Unchanged but' s t :=
  fun p hp => h p fun hmem => hp (hsub hmem)

theorem Unchanged.refl (but : List Part) (s : State) : Unchanged but s s := by
  intro p _
  cases p <;> simp [Part.same]

theorem unchanged_drew (s : State) : Unchanged [.rng] s s.drew := by
  intro p hp
  cases p
  case rng => simp at hp
  all_goals simp [Part.same]

theorem writes_of_destination {i : Instr} {x : Reg} (h : destination i = some x) : [.V, .pc] ⊆ writes i := by
  cases i <;> simp_all [destination, writes]

theorem writes_of_skip {i : Instr} (h : pcBound i = 0x1002) : writes i = [.pc] := by
  cases i <;> simp_all [pcBound, writes]

theorem Effect.frame {i : Instr} {s t : State} (h : Effect s i t) : Unchanged (writes i) s t := by
  cases h with
  | result x r hdest =>
    exact (advance_of_unchanged (unchanged_setV s x r)).2.mono (writes_of_destination hdest)
  | resultAndFlag x r flag hdest _ =>
    have hregs := (unchanged_setV s x r).trans_same (unchanged_setV _ VF flag)
    exact (advance_of_unchanged hregs).2.mono (writes_of_destination hdest)
  | skip c hskip => exact writes_of_skip hskip ▸ unchanged_skipIf s c
  | rnd x kk r =>
    exact (advance_of_frame ((unchanged_drew s).trans (unchanged_setV _ x r)) (by decide)).2.mono (by simp [writes])
  | keyWait x => exact .refl _ s
  | sys nnn => exact unchanged_setPc s _
  | jp nnn => exact unchanged_setPc s _
  | jpV0 nnn => exact unchanged_setPc s _
  | call nnn k _ => exact (unchanged_pushed s k s.pc).trans (unchanged_setPc _ _)
  | ret k _ => exact (unchanged_popped s k).trans (unchanged_setPc _ _)
  | cls => exact (advance_of_frame (unchanged_setFb s _) (by decide)).2
  | drw x y n flag f =>
    exact (advance_of_frame ((unchanged_setV s VF flag).trans (unchanged_setFb _ f)) (by decide)).2
  | ldI nnn => exact (advance_of_frame (unchanged_setI s _) (by decide)).2
  | addI x => exact (advance_of_frame (unchanged_setI s _) (by decide)).2
  | ldF x _ => exact (advance_of_frame (unchanged_setI s _) (by decide)).2
  | ldDTVx x => exact (advance_of_frame (unchanged_setDT s _) (by decide)).2
  | ldSTVx x => exact (advance_of_frame (unchanged_setST s _) (by decide)).2
  | ldB x m _ => exact (advance_of_frame (unchanged_setMem s m) (by decide)).2
  | storeRegs x m _ => exact (advance_of_frame (unchanged_setMem s m) (by decide)).2
  | loadRegs x vs _ => exact (advance_of_frame (unchanged_setRegs s vs) (by decide)).2

/-- Settles O12: the frame of the effect. -/
theorem instructionsWriteOnlyTheirParts : Obligations.InstructionsWriteOnlyTheirParts :=
  fun _ _ _ h => (effect_of_exec h).frame

/-! ### The registers and the index -/

/-- A write of one register changes no other. -/
theorem eq_of_setV_ne {s : State} {x j : Reg} {b : Byte} (h : (s.setV x b).V[j] ≠ s.V[j]) : j = x := by
  by_contra hne
  exact h ((s.setV_getElem x j b).trans (if_neg hne))

/-- Settles O13: the shapes that write V are the results, the flags and the bulk load. -/
theorem registersChangeOnlyAsDestinationOrFlag : Obligations.RegistersChangeOnlyAsDestinationOrFlag := by
  intro i s t j hexec hne
  cases effect_of_exec hexec with
  | result x r hdest =>
    obtain rfl := eq_of_setV_ne hne
    exact .inl hdest
  | rnd x kk r =>
    obtain rfl := eq_of_setV_ne (s := s.drew) hne
    exact .inl rfl
  | resultAndFlag x r flag hdest hflag =>
    by_cases hVF : j = VF
    · exact .inr (.inl ⟨hflag, hVF⟩)
    · have hres : (s.setV x r).V[j] ≠ s.V[j] := fun heq =>
        hne (((s.setV x r).setV_getElem VF j flag).trans ((if_neg hVF).trans heq))
      obtain rfl := eq_of_setV_ne hres
      exact .inl hdest
  | drw x y n flag f => exact .inr (.inl ⟨rfl, eq_of_setV_ne hne⟩)
  | loadRegs x vs hkept => exact .inr (.inr ⟨x, rfl, not_lt.mp fun hj => hne (hkept j hj)⟩)
  | _ => exact absurd rfl hne

/-- Settles O32: three shapes write I; the literal has 12 bits, and the last glyph starts at 0x9B. -/
theorem onlyAddIndexPassesTwelveBits : Obligations.OnlyAddIndexPassesTwelveBits := by
  intro i s t hexec hne
  cases effect_of_exec hexec with
  | addI x => exact .inl ⟨x, rfl⟩
  | ldI nnn =>
    have hI : (s.setI (zextAddr nnn)).advance.I.toNat = nnn.toNat := zextAddr_toNat nnn
    exact .inr (.inl ⟨nnn, rfl, by omega⟩)
  | ldF x hdigit =>
    have hI : (s.setI (glyphAddress s.V[x])).advance.I.toNat = 0x50 + 5 * s.V[x].toNat := glyphAddress_toNat _
    exact .inr (.inr ⟨x, rfl, by omega⟩)
  | _ => exact absurd rfl hne

/-! ### The key set -/

theorem Effect.keys_eq {i : Instr} {s t : State} (h : Effect s i t) : t.keys = s.keys := by
  cases h <;> rfl

/-- The inversion of a step that completes: the instruction at pc has its effect. -/
theorem effect_of_step {s t : State} (h : step s = .next t) :
    s.pc.toNat ≤ 0xFFE ∧ ∃ i,
      decode (opcodeOfBytes (s.mem.read s.pc.toNat) (s.mem.read (s.pc.toNat + 1))) = .ok i ∧ Effect s i t := by
  obtain ⟨hpc, i, hdecode, hexec⟩ := step_next h
  exact ⟨hpc, i, hdecode, effect_of_exec hexec⟩

/-- A property of states that every step keeps is kept by RUN, whether it completes or ends in an error. -/
theorem run_induction {P : State → Prop} (hstep : ∀ s t, P s → step s = .next t → P t) (n : Nat) {s : State} (h : P s) :
    P (run n s).1 := by
  induction n generalizing s with
  | zero => exact h
  | succ n ih =>
    cases hs : step s with
    | next t => rw [run_succ_next n hs]; exact ih (hstep s t h hs)
    | fault e => rw [run_succ_fault n hs]; exact h
    | refused r => rw [run_succ_refused n hs]; exact h

/-- Settles O14: every step keeps the key set, since no shape writes it. -/
theorem runKeepsTheKeySet : Obligations.RunKeepsTheKeySet := by
  refine fun n s => run_induction (P := fun t => t.keys = s.keys) (fun t u ht hstep => ?_) n rfl
  obtain ⟨-, i, -, heffect⟩ := effect_of_step hstep
  exact heffect.keys_eq.trans ht

end Sys2Proof.Machine
end

