-- ==== Sys2Proof/Proofs/Invariant.lean ====
section
/-! The machine's invariant and the bound of pc (70_reset_and_hazards.md R296): kept by every step, and so by every
command that the host can issue. -/

namespace Sys2Proof.Machine

/-! ### The bound of pc -/

section
variable {i : Instr} {s t : State}

/-- The address two bytes on, in 16 bits: the next instruction, or past the CALL at a popped address. -/
theorem add_two_toNat (w : Word) : (w + 2).toNat = (w.toNat + 2) % 65536 := BitVec.toNat_add w 2

theorem add_two_toNat_le {w : Word} (h : w.toNat ≤ 0xFFE) : (w + 2).toNat ≤ 0x1000 := by
  rw [add_two_toNat]
  omega

theorem advance_pc_le {u : State} (h : u.pc.toNat ≤ 0xFFE) : u.advance.pc.toNat ≤ 0x1000 :=
  add_two_toNat_le h

theorem pcBound_of_destination {x : Reg} (h : destination i = some x) : pcBound i = 0x1000 := by
  cases i <;> simp_all [destination, pcBound]

/-- The bound of the pc that an instruction at pc <= 0xFFE writes, where every return address is that of a CALL
(70_reset_and_hazards.md R296). -/
theorem Effect.pc_le (h : Effect s i t) (hpc : s.pc.toNat ≤ 0xFFE)
    (hret : ∀ k : Fin 16, k.val < s.sp.val → s.stack[k].toNat ≤ 0xFFE) : t.pc.toNat ≤ pcBound i := by
  cases h with
  | result x r hdest => exact pcBound_of_destination hdest ▸ advance_pc_le hpc
  | resultAndFlag x r flag hdest _ => exact pcBound_of_destination hdest ▸ advance_pc_le hpc
  | skip c hskip =>
    rw [hskip, skipIf_pc_toNat]
    split <;> omega
  | keyWait x => exact hpc.trans (Nat.le_of_ble_eq_true rfl)
  | jp nnn | call nnn k _ =>
    have hnnn := nnn.isLt
    exact (zextAddr_toNat nnn).trans_le (by simp only [pcBound]; omega)
  | jpV0 nnn =>
    have hnnn := nnn.isLt
    have hV0 := s.V[(0 : Reg)].isLt
    exact (zextAddr_add_zextByte_toNat nnn _).trans_le (by simp only [pcBound]; omega)
  | ret k hsp => exact add_two_toNat_le (hret k (by simp [hsp]))
  | _ => exact advance_pc_le hpc

theorem pcBound_le (i : Instr) : pcBound i ≤ 0x10FE := by
  cases i <;> simp [pcBound]

/-! ### The invariant -/

theorem Effect.mem_wf (h : Effect s i t) (hw : s.mem.wf = true) : t.mem.wf = true := by
  cases h with
  | ldB x m hwrite => exact memWrite_wf hw hwrite
  | storeRegs x m hwrite => exact memWrite_wf hw hwrite
  | _ => exact hw

theorem State.pushed_getElem (s : State) (k j : Fin 16) (v : Word) :
    (s.pushed k v).stack[j] = if j = k then v else s.stack[j] := by
  simp [State.pushed, Vector.getElem_set, Fin.ext_iff, eq_comm]

/-- CALL adds its own address to the return addresses, RET drops the last one, and no other shape touches them. -/
theorem Effect.returnAddresses (h : Effect s i t) (hpc : s.pc.toNat ≤ 0xFFE)
    (hret : ∀ k : Fin 16, k.val < s.sp.val → s.stack[k].toNat ≤ 0xFFE) :
    ∀ k : Fin 16, k.val < t.sp.val → t.stack[k].toNat ≤ 0xFFE := by
  cases h with
  | call nnn k hsp =>
    intro j hj
    have hentry := s.pushed_getElem k j s.pc
    rw [State.setPc_stack, hentry]
    split
    case isTrue => exact hpc
    case isFalse hne =>
      have hjk : j.val < k.val + 1 := hj
      have hsp' : s.sp.val = k.val := congrArg Fin.val hsp
      exact hret j (by omega)
  | ret k hsp => exact fun j hj => hret j (hsp ▸ Nat.lt_succ_of_lt hj)
  | _ => exact hret

end

/-- Settles O57: the inversion of the step, and one lemma per field of the invariant. -/
theorem stepKeepsTheInvariant : Obligations.StepKeepsTheInvariant := by
  intro s t hinv hstep
  obtain ⟨hpc, i, -, heffect⟩ := effect_of_step hstep
  exact ⟨heffect.mem_wf hinv.memCanonical, heffect.returnAddresses hpc hinv.returnAddresses,
    (heffect.pc_le hpc hinv.returnAddresses).trans (pcBound_le i)⟩

/-- Settles O59: the instruction of the step is the one that the opcode at pc decodes to. -/
theorem pcNeverWraps : Obligations.PcNeverWraps := by
  intro s t op i hinv hop hdecode hstep
  obtain ⟨hpc, i', hdecode', heffect⟩ := effect_of_step hstep
  rw [← (opcodeAtPc_iff s op).mp hop, hdecode] at hdecode'
  cases hdecode'
  exact ⟨hpc, heffect.pc_le hpc hinv.returnAddresses⟩

/-- A fresh state with a canonical memory meets the invariant: its stack is empty and its pc is 0x200. -/
theorem inv_freshRegisters {m : Memory} (hw : m.wf = true) (rng : Nat) : (freshRegisters m rng).Inv :=
  ⟨hw, fun k hk => absurd hk (Nat.not_lt_zero _), by simp [State.reset]⟩

/-- Settles O56: the reset state is a fresh state with the empty list as memory. -/
theorem resetMeetsTheInvariant : Obligations.ResetMeetsTheInvariant := inv_freshRegisters rfl 0

theorem run_keeps_inv (n : Nat) {s : State} (h : s.Inv) : (run n s).1.Inv := run_induction stepKeepsTheInvariant n h

theorem load_keeps_inv (bytes : List Byte) {s : State} (h : s.Inv) : (command (.load bytes) s).1.Inv := by
  cases hwrite : memWrite s.mem 0x200 bytes with
  | error e => rw [load_of_memWrite_error hwrite]; exact h
  | ok m => rw [load_of_memWrite_ok hwrite]; exact inv_freshRegisters (memWrite_wf h.memCanonical hwrite) s.rng

/-- Every command of the host keeps the invariant: the key commands and TIMER_TICK write no part of it. -/
theorem command_keeps_inv (c : Command) {s : State} (h : s.Inv) : (command c s).1.Inv := by
  cases c with
  | run n => exact run_keeps_inv n h
  | load bytes => exact load_keeps_inv bytes h
  | reset => exact inv_freshRegisters rfl s.rng
  | keyDown k | keyUp k => exact ⟨h.memCanonical, h.returnAddresses, h.pcRange⟩
  | timerTick => exact ⟨h.memCanonical, h.returnAddresses, h.pcRange⟩
  | frame | readState => exact h

/-- Settles O58: by induction on how the state is reached. -/
theorem reachableStatesMeetTheInvariant : Obligations.ReachableStatesMeetTheInvariant := by
  intro s hreach
  induction hreach with
  | powerOn rng => exact inv_freshRegisters rfl rng
  | after c s _ ih => exact command_keeps_inv c ih

end Sys2Proof.Machine
end

