-- ==== Sys2Proof/Proofs/StepErrors.lean ====
section
/-! The errors of a step in the order of its checks (60_exceptions.md R233), and the one error that no step raises
(10_state.md R23). -/

namespace Sys2Proof.Machine

/-- Settles O10: the fetch fails above 0xFFE; below, the opcode is illegal or decodes; and the instruction decoded
raises its listed error. -/
theorem stepErrorsComeInOrder : Obligations.StepErrorsComeInOrder := by
  intro s op e hop
  rcases Nat.lt_or_ge 0xFFE s.pc.toNat with hhigh | hlow
  · rw [step_of_fetch_error (fetch_beyond_memory (show 4096 < s.pc.toNat + 2 by omega))]
    simp [show 0xFFF ≤ s.pc.toNat by omega, Nat.not_le.mpr hhigh, eq_comm]
  have hinside : ¬ 0xFFF ≤ s.pc.toNat := by omega
  have hfetch := fetch_of_opcodeAtPc (show s.pc.toNat + 2 ≤ 4096 by omega) hop
  cases hdecode : decode op with
  | error r =>
    have hillegal : IllegalOpcode op.toNat := by
      by_contra hlegal
      obtain ⟨i, hi⟩ := (exists_decode_iff_not_illegal op).mpr hlegal
      rw [hi] at hdecode
      cases hdecode
    rw [step_of_decode_error hfetch hdecode]
    simp [hlow, hinside, hillegal, eq_comm]
  | ok i =>
    have hlegal := (exists_decode_iff_not_illegal op).mp ⟨i, hdecode⟩
    rw [step_of_decode_ok hfetch hdecode, execRaisesExactlyTheListedErrors]
    simp [hlow, hinside, hlegal]

/-- The spec lists `InvalidRegister` for no instruction (60_exceptions.md R230). -/
theorem errorOf_ne_invalidRegister (i : Instr) (s : State) : errorOf i s ≠ some .invalidRegister := by
  cases i <;> simp [errorOf]

theorem step_ne_invalidRegister (s : State) : step s ≠ .fault .invalidRegister := by
  rcases step_cases s with ⟨-, hstep⟩ | ⟨-, op, -, ⟨r, -, hstep⟩ | ⟨i, -, hstep⟩⟩ <;> rw [hstep]
  · simp
  · simp
  · exact fun h => errorOf_ne_invalidRegister i s ((execRaisesExactlyTheListedErrors i s _).mp h)

theorem getV_reg (s : State) (x : Reg) : getV s x.val = .ok s.V[x] := dif_pos x.isLt

theorem setV_reg (s : State) (x : Reg) (b : Byte) : setV s x.val b = .ok (s.setV x b) := dif_pos x.isLt

/-- Settles O11: the accessors check the index, and no error of a step is theirs. -/
theorem invalidRegisterIsNeverRaisedByAStep : Obligations.InvalidRegisterIsNeverRaisedByAStep := by
  refine ⟨fun s i b hi => ⟨dif_neg (Nat.not_lt.mpr hi), dif_neg (Nat.not_lt.mpr hi)⟩,
    fun s x b => ⟨getV_reg s x, s.setV x b, setV_reg s x b, fun j => s.setV_getElem x j b, unchanged_setV s x b⟩,
    step_ne_invalidRegister⟩

end Sys2Proof.Machine
end

