-- ==== Sys2Proof/Proofs/CallStack.lean ====
section
/-! SYS, RET and the call stack (40_flow.md R100, R101; 10_state.md R28, R29): what each leaves at each depth. -/

namespace Sys2Proof.Machine

/-! ### SYS -/

theorem hasOpcode_sys {nnn : Addr12} (h : sysOperandTaken nnn = false) : HasOpcode (.sys nnn) nnn.toNat :=
  ⟨(encAddr_toNat 0x0 nnn).trans (Nat.zero_add _), decode_encode_sys h⟩

theorem sysOperandTaken_of_toNat_ne {nnn : Addr12} (hcls : nnn.toNat ≠ 0x0E0) (hret : nnn.toNat ≠ 0x0EE) :
    sysOperandTaken nnn = false := by
  simp only [sysOperandTaken, Bool.or_eq_false_iff, beq_eq_false_iff_ne]
  exact ⟨mt (congrArg BitVec.toNat) hcls, mt (congrArg BitVec.toNat) hret⟩

/-- Settles O15: SYS is `pc <- pc + 2` alone, and the operands left out are those of CLS and RET. -/
theorem sysOnlyAdvances : Obligations.SysOnlyAdvances :=
  ⟨fun nnn s => ⟨_, exec_sys nnn s, advance_of_frame (.refl [] s) List.not_mem_nil⟩,
    fun _ hcls hret => hasOpcode_sys (sysOperandTaken_of_toNat_ne hcls hret)⟩

/-! ### The call stack -/

theorem hasOpcode_ret : HasOpcode .ret 0x00EE := ⟨rfl, rfl⟩

/-- Settles O18: RET is a pop followed by a write of pc, so it fails where the pop does, and its frame is the two frames
composed. -/
theorem returnGoesPastTheCall : Obligations.ReturnGoesPastTheCall := by
  refine ⟨hasOpcode_ret, fun s => ⟨fun hsp => exec_ret_of_zero (Fin.ext hsp), fun k hsp => ?deep⟩⟩
  case deep =>
    exact ⟨_, exec_ret_of_succ (Fin.ext hsp), rfl, add_two_toNat _, (unchanged_popped s k).trans (unchanged_setPc _ _)⟩

/-- Settles O19: the CALL left its own address at its own depth, where the RET finds it. -/
theorem returnResumesAfterItsCall : Obligations.ReturnResumesAfterItsCall := by
  intro nnn s t u hcall hsp hstack
  rcases Fin.eq_castSucc_or_eq_last s.sp with ⟨k, hk⟩ | hfull
  · rw [exec_call_of_castSucc hk] at hcall
    cases hcall
    have hentry : u.stack[k] = s.pc := by rw [hstack, State.setPc_stack, s.pushed_getElem k k s.pc, if_pos rfl]
    refine ⟨_, exec_ret_of_succ (k := k) hsp, ?pc, hk.symm⟩
    case pc =>
      rw [hentry]
      exact add_two_toNat s.pc
  · rw [exec_call_of_push_error (push_full (congrArg Fin.val hfull) s.pc)] at hcall
    cases hcall

/-- Settles O20: at each depth the stack is pushed to, or popped from, in one known way; what is pushed is then popped,
since the push put it at the depth that the pop reads. -/
theorem pushAndPopAreLastInFirstOut : Obligations.PushAndPopAreLastInFirstOut := by
  refine ⟨fun s v hsp => push_full hsp v, fun s v hsp => ?push, fun s hsp => pop_of_zero (Fin.ext hsp),
    fun s k hsp => ?pop⟩
  case push =>
    obtain ⟨k, hk⟩ : ∃ k : Fin 16, s.sp = k.castSucc := ⟨⟨s.sp.val, hsp⟩, rfl⟩
    have hdepth : s.sp.val = k.val := congrArg Fin.val hk
    have htop : (s.pushed k v).stack[k] = v := (s.pushed_getElem k k v).trans (if_pos rfl)
    refine ⟨s.pushed k v, push_of_castSucc hk v, ?depth, fun j => ?entry, unchanged_pushed s k v,
      (s.pushed k v).popped k, ?last, hk.symm⟩
    case depth => rw [hdepth]; rfl
    case entry => simpa only [hdepth, Fin.ext_iff] using s.pushed_getElem k j v
    case last => rw [pop_of_succ (s := s.pushed k v) rfl, htop]
  case pop => exact ⟨s.popped k, pop_of_succ (Fin.ext hsp), rfl, unchanged_popped s k⟩

end Sys2Proof.Machine
end

