-- ==== Sys2Proof/Proofs/Random.lean ====
section
/-! RND for every draw (43_index_random.md R162). -/

namespace Sys2Proof.Machine

theorem hasOpcode_rnd (x : Reg) (kk : Byte) : HasOpcode (.rnd x kk) (0xC000 + x.val * 256 + kk.toNat) :=
  ⟨encRegImm_toNat 0xC x kk, decode_encode rfl⟩

/-- What RND writes for a given draw: the masked draw in Vx, one more draw counted, and pc (R162). -/
theorem writes_of_rndWith (r : Byte) (x : Reg) (kk : Byte) (s : State) :
    ∃ t, rndWith r x kk s = .next t ∧ t.V[x] = r &&& kk ∧ (∀ j : Reg, j ≠ x → t.V[j] = s.V[j]) ∧
      t.rng = s.rng + 1 ∧ Advanced s t ∧ Unchanged [.V, .rng, .pc] s t := by
  have hdrawn : Unchanged [.V, .rng] s (s.drew.setV x (r &&& kk)) :=
    ((unchanged_drew s).trans (unchanged_setV _ x _)).mono (by simp)
  exact ⟨_, rfl, (s.drew.setV_getElem x x _).trans (if_pos rfl),
    fun j hj => (s.drew.setV_getElem x j _).trans (if_neg hj), rfl, advance_of_frame hdrawn (by decide)⟩

/-- Settles O31: the draw of the count is one of the bytes that RND masks. -/
theorem randomByteIsMaskedForEveryDraw : Obligations.RandomByteIsMaskedForEveryDraw := by
  refine fun x kk s => ⟨hasOpcode_rnd x kk, ?counted, fun r => ?every⟩
  case counted =>
    obtain ⟨t, hnext, hdest, hrest⟩ := writes_of_rndWith (Config.randByte s.rng) x kk s
    exact ⟨t, (exec_rnd x kk s).trans hnext, hdest, fun b hb => by simp [hdest, hb], hrest⟩
  case every =>
    obtain ⟨t, hnext, hdest, hrest⟩ := writes_of_rndWith r x kk s
    exact ⟨t, hnext, fun b _ => by simp [hdest], hrest⟩

end Sys2Proof.Machine
end

