-- ==== Sys2Proof/Proofs/DrawLaws.lean ====
section
/-! The laws of DRW over two draws and at the corner of the screen (44_display.md R174). -/

namespace Sys2Proof.Machine

/-- What a DRW draws depends on the coordinates, I and the bytes of the sprite alone. -/
theorem underSprite_congr {x y : Reg} {s u : State} (n : Height) (hI : u.I = s.I)
    (hmem : ∀ a : Nat, u.mem.read a = s.mem.read a) (hx : u.V[x] = s.V[x]) (hy : u.V[y] = s.V[y]) (j : Nat) :
    UnderSprite x y n u j ↔ UnderSprite x y n s j := by
  simp only [UnderSprite, Covered, originX, originY, hI, hmem, hx, hy]

/-- The inversion of a DRW that completes: its sprite lies in memory, and the frame buffer is the drawn one. -/
theorem drw_next {x y : Reg} {n : Height} {s t : State} (h : exec (.drw x y n) s = .next t) :
    s.I.toNat + n.val ≤ 4096 ∧ t.fb = (drawn x y n s).fb ∧ t.V[VF] = flagByte (drawn x y n s).hit := by
  rcases Nat.lt_or_ge 4096 (s.I.toNat + n.val) with hbeyond | hinside
  · rw [exec_drw_beyond_memory hbeyond] at h
    cases h
  · rw [exec_drw_inside_memory hinside] at h
    cases h
    exact ⟨hinside, rfl, (s.setV_getElem VF VF _).trans (if_pos rfl)⟩

/-- A pixel inverted twice has its first value. -/
theorem eq_of_ne_of_ne {a b c : Bool} (hab : a ≠ b) (hbc : b ≠ c) : a = c := by
  rw [Bool.eq_not_iff.mpr hab, Bool.eq_not_iff.mpr hbc, Bool.not_not]

/-- Settles O35: the second draw covers the pixels the first one covered, and inverts them back; they are on before it
where they were off before the first. -/
theorem drawingTwiceRestoresTheScreen : Obligations.DrawingTwiceRestoresTheScreen := by
  intro x y n s t u hdraw hfb hI hmem hx hy
  obtain ⟨hinside, htfb, -⟩ := drw_next hdraw
  have hunder := underSprite_congr n hI hmem hx hy
  have hfirst : ∀ j : Fin 2048, t.fb[j] = s.fb[j] ↔ ¬ UnderSprite x y n s j.val := fun j =>
    htfb ▸ drawn_fb_eq_iff x y n s j
  have hsecond : ∀ j : Fin 2048, (drawn x y n u).fb[j] = t.fb[j] ↔ ¬ UnderSprite x y n s j.val := fun j => by
    rw [← hunder, ← hfb, drawn_fb_eq_iff]
  have hhit : (drawn x y n u).hit = true ↔ ∃ j : Fin 2048, t.fb[j] = true ∧ UnderSprite x y n s j.val := by
    simp only [drawn_hit_iff, hfb, hunder]
  have hnext := exec_drw_inside_memory (hI ▸ hinside : u.I.toNat + n.val ≤ 4096) x y
  obtain ⟨-, hwfb, hwVF⟩ := drw_next hnext
  have hflag := flag_cases hwVF hhit
  refine ⟨_, hnext, ?restored, fun ⟨j, hj⟩ hoff => ?collides, fun hnone => ?misses⟩
  case restored =>
    rw [hwfb]
    refine Vector.ext fun j hj => ?_
    have hfirst := hfirst ⟨j, hj⟩
    have hsecond := hsecond ⟨j, hj⟩
    by_cases hp : UnderSprite x y n s j
    · exact eq_of_ne_of_ne (mt hsecond.mp (not_not.mpr hp)) (mt hfirst.mp (not_not.mpr hp))
    · exact (hsecond.mpr hp).trans (hfirst.mpr hp)
  case collides =>
    have hp : UnderSprite x y n s j.val := not_not.mp (mt (hfirst j).mpr hj)
    have hon : t.fb[j] = true := by simpa [hoff j hj] using hj
    exact (hflag.resolve_right fun ⟨_, hno⟩ => hno ⟨j, hon, hp⟩).1
  case misses => exact (hflag.resolve_left fun ⟨_, j, _, hp⟩ => (hfirst j).mp (hnone j) hp).1

/-- Settles O36: a sprite whose origin is the last pixel covers that pixel or none. -/
theorem cornerSpriteTouchesOnePixel : Obligations.CornerSpriteTouchesOnePixel := by
  intro x y n s hinside hx hy
  obtain ⟨-, -, hdraw⟩ := drawInvertsExactlyTheCoveredPixels x y n s
  obtain ⟨t, hnext, hpixels, -⟩ := hdraw hinside
  refine ⟨t, hnext, fun j hj => (hpixels j).mpr ?_⟩
  rintro ⟨hleft, -, htop, -⟩
  omega

end Sys2Proof.Machine
end

