-- ==== Sys2Proof/Proofs/CanonicalMemory.lean ====
section
/-! Range accesses, the canonical form as a normal form, and code that the machine stores before it runs (20_memory.md
R50 to R53, R63). -/

namespace Sys2Proof.Machine

/-! ### Range accesses -/

/-- Settles O46: each access checks its range and then reads or writes it byte by byte; a write inside memory keeps the
canonical form. -/
theorem rangeAccessesAreAllOrNothing : Obligations.RangeAccessesAreAllOrNothing := by
  refine ⟨fun m addr n h => ?read, fun m addr n h => memRead_error_iff.mpr ⟨h, rfl⟩, fun m addr bytes hw h => ?write,
    fun m addr bytes h => memWrite_error_iff.mpr ⟨h, rfl⟩⟩
  case read => exact ⟨_, memRead_ok_iff.mpr ⟨h, rfl⟩, by simp, fun k hk => by simp [hk]⟩
  case write =>
    obtain ⟨m', hwrite, hinside, houtside⟩ := memWrite_inside_memory hw h
    exact ⟨m', hwrite, memWrite_wf hw hwrite, fun k hk => by rw [hinside k hk, List.getElem?_eq_getElem hk], houtside⟩

/-! ### The canonical form is a normal form -/

namespace Memory

theorem wfFrom_cons_iff {lo a : Nat} {b : Byte} {m : Memory} :
    wfFrom lo ((a, b) :: m) = true ↔ lo ≤ a ∧ a < memSize ∧ b ≠ unlistedByte a ∧ wfFrom (a + 1) m = true := by
  simp only [wfFrom, Bool.and_eq_true, decide_eq_true_eq, bne_iff_ne, and_assoc]

theorem read_cons_same (a : Nat) (b : Byte) (m : Memory) : read ((a, b) :: m) a = b := by simp [read]

theorem read_cons_other {a a' : Nat} (b : Byte) (m : Memory) (h : a' ≠ a) : read ((a, b) :: m) a' = read m a' := by
  simp [read, h]

/-- The two lists read alike over the whole address space. -/
def Alike (m m' : Memory) : Prop := ∀ a : Nat, a < 4096 → m.read a = m'.read a

theorem Alike.symm {m m' : Memory} (h : Alike m m') : Alike m' m := fun a ha => (h a ha).symm

/-- A canonical list that reads like another starts no later than the other's first entry, whose byte an unlisted
address would not read as. -/
theorem le_head_of_alike {lo lo' k : Nat} {c : Byte} {rest m : Memory} (hw : wfFrom lo ((k, c) :: rest) = true)
    (hw' : wfFrom lo' m = true) (h : Alike ((k, c) :: rest) m) : lo' ≤ k := by
  obtain ⟨-, hk, hne, -⟩ := wfFrom_cons_iff.mp hw
  by_contra hlt
  have hread := h k hk
  rw [read_cons_same, read_below hw' (Nat.not_le.mp hlt)] at hread
  exact hne hread

theorem wfFrom_head {lo k : Nat} {c : Byte} {rest : Memory} (hw : wfFrom lo ((k, c) :: rest) = true) :
    wfFrom k ((k, c) :: rest) = true := by
  rw [wfFrom_cons_iff] at hw ⊢
  exact ⟨le_refl k, hw.2⟩

/-- Behind a common first address the tails read alike: at that address neither lists anything. -/
theorem alike_tail {k : Nat} {c c' : Byte} {rest rest' : Memory} (hw : wfFrom (k + 1) rest = true)
    (hw' : wfFrom (k + 1) rest' = true) (h : Alike ((k, c) :: rest) ((k, c') :: rest')) : Alike rest rest' := by
  intro a ha
  by_cases hak : a = k
  · rw [hak, read_below hw (Nat.lt_succ_self k), read_below hw' (Nat.lt_succ_self k)]
  · rw [← read_cons_other c rest hak, h a ha, read_cons_other c' rest' hak]

/-- Canonical lists that read alike are equal: they have the same first entry, if any, and the tails read alike. -/
theorem eq_of_alike {lo lo' : Nat} {m m' : Memory} (hw : wfFrom lo m = true) (hw' : wfFrom lo' m' = true)
    (h : Alike m m') : m = m' := by
  induction m generalizing lo lo' m' with
  | nil =>
    cases m' with
    | nil => rfl
    | cons kc' rest' => exact absurd (le_head_of_alike hw' (lo' := kc'.1 + 1) rfl h.symm) (Nat.not_succ_le_self _)
  | cons kc rest ih =>
    cases m' with
    | nil => exact absurd (le_head_of_alike hw (lo' := kc.1 + 1) rfl h) (Nat.not_succ_le_self _)
    | cons kc' rest' =>
      obtain ⟨k, c⟩ := kc
      obtain ⟨k', c'⟩ := kc'
      obtain rfl : k' = k := le_antisymm (le_head_of_alike hw (wfFrom_head hw') h)
        (le_head_of_alike hw' (wfFrom_head hw) h.symm)
      obtain ⟨-, hk, -, hrest⟩ := wfFrom_cons_iff.mp hw
      obtain ⟨-, -, -, hrest'⟩ := wfFrom_cons_iff.mp hw'
      have hbyte := h k' hk
      rw [read_cons_same, read_cons_same] at hbyte
      rw [hbyte, ih hrest hrest' (alike_tail hrest hrest' h)]

end Memory

/-- Settles O47: canonical lists agree entry by entry. -/
theorem canonicalMemoriesReadingAlikeAreEqual : Obligations.CanonicalMemoriesReadingAlikeAreEqual :=
  fun _ _ hw hw' h => Memory.eq_of_alike hw hw' h

/-! ### Stored code -/

/-- Settles O48: the store puts V0 and V1 at the pc of the next step, which fetches them as the opcode they compose. -/
theorem storedCodeRunsAtTheNextStep : Obligations.StoredCodeRunsAtTheNextStep := by
  intro x s t op i hw hstore hI hx hop hdecode
  obtain ⟨-, hbeyond, hinside⟩ := bulkStoreWritesRegistersInOrder x s
  rcases Nat.lt_or_ge 4096 (s.I.toNat + x.val + 1) with hout | hin
  · rw [hbeyond hout] at hstore
    cases hstore
  obtain ⟨⟨t', hnext, hstored, -, hadv, -⟩, -⟩ := hinside hw hin
  obtain rfl : t' = t := by
    rw [hnext] at hstore
    cases hstore
    rfl
  have hpc : t'.pc.toNat = s.I.toNat := by
    rw [Advanced] at hadv
    omega
  have hhigh : t'.mem.read s.I.toNat = s.V[(0 : Reg)] := hstored 0 (Fin.zero_le x)
  have hlow : t'.mem.read (s.I.toNat + 1) = s.V[(1 : Reg)] := hstored 1 (Fin.le_def.mpr hx)
  have hopcode : OpcodeAtPc t' op := by
    rw [OpcodeAtPc, hpc, hhigh, hlow, hop]
  exact step_of_decode_ok (fetch_of_opcodeAtPc (by omega) hopcode) hdecode

end Sys2Proof.Machine
end

