-- ==== Sys2Proof/Proofs/RepeatedSteps.lean ====
section
/-! RUN as repeated steps, and at the key wait (60_exceptions.md R251; 70_reset_and_hazards.md R294). -/

namespace Sys2Proof.Machine

/-! ### RUN -/

/-- RUN and the host's run of the core take the same steps, and complete together. -/
theorem run_eq_ok_iff (n : Nat) (s t : State) : run n s = (t, .ok) ↔ Sys2Proof.core.run n s = .next t := by
  induction n generalizing s with
  | zero => exact ⟨fun h => by cases h; rfl, fun h => by cases h; rfl⟩
  | succ n ih =>
    cases hstep : step s with
    | next u => rw [run_succ_next n hstep, coreRun_next core n hstep, ih]
    | fault e => simp [run_succ_fault n hstep, coreRun_fault core n hstep]
    | refused r => simp [run_succ_refused n hstep, coreRun_refused core n hstep]

/-- Budgets add where the first run completes. -/
theorem run_add (m n : Nat) (s t : State) (h : run m s = (t, .ok)) : run (m + n) s = run n t := by
  induction m generalizing s with
  | zero =>
    cases h
    rw [Nat.zero_add]
  | succ m ih =>
    rw [Nat.add_right_comm]
    cases hstep : step s with
    | next u =>
      rw [run_succ_next m hstep] at h
      rw [run_succ_next _ hstep, ih u h]
    | fault e =>
      rw [run_succ_fault m hstep] at h
      cases h
    | refused r =>
      rw [run_succ_refused m hstep] at h
      cases h

/-- Settles O55: both by induction on the budget. -/
theorem runIsRepeatedSteps : Obligations.RunIsRepeatedSteps := ⟨run_eq_ok_iff, run_add⟩

/-! ### The key wait -/

/-- A step that answers its own state is repeated for the whole budget. -/
theorem run_of_step_self {s : State} (h : step s = .next s) (n : Nat) : run n s = (s, .ok) := by
  induction n with
  | zero => rfl
  | succ n ih => rw [run_succ_next n h, ih]

/-- Settles O39: with no key down the step at the key wait answers its own state. -/
theorem keyWaitUsesTheWholeBudget : Obligations.KeyWaitUsesTheWholeBudget := by
  intro x s op hpc hop hval hup
  obtain ⟨hword, hdecode⟩ := hasOpcode_ldVxK x
  obtain rfl : op = encode (.ldVxK x) := BitVec.eq_of_toNat_eq (hval.trans hword.symm)
  have hstep := step_of_decode_ok (fetch_of_opcodeAtPc (show s.pc.toNat + 2 ≤ 4096 by omega) hop) hdecode
  exact run_of_step_self (hstep.trans (exec_ldVxK_of_none ((firstKeyDown_none_iff s).mpr hup) x))

end Sys2Proof.Machine
end

