-- ==== Sys2Proof/Proofs/ResetCommand.lean ====
section
/-! The host's command RESET, and the glyph table that reset memory holds (70_reset_and_hazards.md R280). -/

namespace Sys2Proof.Machine

/-- The glyph table at any font: row r of digit d (10_state.md R34). -/
theorem resetByte_glyph (cfg : Config) (d : Fin 16) (r : Fin 5) :
    resetByte cfg (0x50 + 5 * d.val + r.val) = cfg.font[d][r] := by
  have hd : (0x50 + 5 * d.val + r.val - fontBase) / 5 = d.val := by unfold fontBase; omega
  have hr : (0x50 + 5 * d.val + r.val - fontBase) % 5 = r.val := by unfold fontBase; omega
  rw [resetByte, dif_pos (by unfold fontBase; omega)]
  simp [hd, hr]

/-- Settles O49: the fields of a fresh state, with the empty list as memory, which reads as the reset contents. -/
theorem resetCommandEstablishesTheResetState : Obligations.ResetCommandEstablishesTheResetState := by
  intro s
  refine ⟨fun hrng => ?fresh, freshRegisters [] s.rng, rfl, rfl, rfl, fun j => ?register, rfl, fun k => ?entry,
    fun k => ?key, rfl, rfl, fun j => ?pixel, fun d r => ?glyph, fun a ha => ?zero, rfl⟩
  case fresh => rw [command, resetCommand, hrng]; rfl
  case register => exact congrArg BitVec.toNat (State.reset_V_getElem j)
  case entry => exact congrArg BitVec.toNat (State.reset_stack_getElem k)
  case key => exact State.reset_keys_getElem k
  case pixel => exact State.reset_fb_getElem j
  case glyph => exact resetByte_glyph decidedConfig d r
  case zero => exact resetByte_outside decidedConfig ha

end Sys2Proof.Machine
end

