-- ==== Sys2Proof/Proofs/ConfiguredDecode.lean ====
section
/-! The decode table at any configuration: what `SKIP_REG_STRICT` decides (41_skip.md R123, R124). -/

namespace Sys2Proof

/-! ### The tables of two configurations -/

/-- The rows name the same operation and fit the opcode alike. -/
def SameRow (w : Word) (d e : Descriptor) : Prop := d.op = e.op ∧ d.fits w = e.fits w

theorem map_op_find?_congr {w : Word} {l l' : List Descriptor} (h : List.Forall₂ (SameRow w) l l') :
    (l.find? fun d => d.fits w).map Descriptor.op = (l'.find? fun d => d.fits w).map Descriptor.op := by
  induction h with
  | nil => rfl
  | @cons d e l l' hrow _ ih =>
    obtain ⟨hop, hfits⟩ := hrow
    rw [List.find?_cons, List.find?_cons, hfits]
    cases e.fits w with
    | true => simp [hop]
    | false => exact ih

/-- Of the row that decodes an opcode, only the operation it names matters. -/
theorem decodeWith_eq_elim (cfg : Config) (w : Word) :
    decodeWith cfg w = (((decodeTable cfg).find? fun d => d.fits w).map Descriptor.op).elim (.error (.noRow w))
      fun o => .ok (o.instr w) := by
  unfold decodeWith
  cases (decodeTable cfg).find? fun d => d.fits w <;> rfl

/-- Tables whose rows are the same for an opcode decode it alike. -/
theorem decodeWith_congr {cfg cfg' : Config} {w : Word}
    (h : List.Forall₂ (SameRow w) (decodeTable cfg) (decodeTable cfg')) : decodeWith cfg w = decodeWith cfg' w := by
  rw [decodeWith_eq_elim, decodeWith_eq_elim, map_op_find?_congr h]

/-- An opcode `5xyn` or `9xyn` with n not 0: the only ones that `SKIP_REG_STRICT` decides (R123, R124). -/
def SkipRegWithNibble (w : Word) : Prop := (w.toNat / 4096 = 5 ∨ w.toNat / 4096 = 9) ∧ w.toNat % 16 ≠ 0

theorem skipRegMask_cases (cfg : Config) : skipRegMask cfg = 0xF00F#16 ∨ skipRegMask cfg = 0xF000#16 := by
  unfold skipRegMask
  split
  · exact .inl rfl
  · exact .inr rfl

/-- A row of the register-register skips fits an opcode whose low nibble is 0, or of another space, alike under both
masks. -/
theorem fits_skipReg_iff {w : Word} (h : ¬ SkipRegWithNibble w) {space : Nat} (hspace : space = 5 ∨ space = 9)
    {id : Word} (hid : id.toNat = space * 4096) (o : Op) (cfg : Config) :
    Descriptor.fits ⟨o, id, skipRegMask cfg⟩ w = true ↔ w.toNat / 4096 = space ∧ w.toNat % 16 = 0 := by
  have hlow : w.toNat / 4096 = space → w.toNat % 16 = 0 := fun heq => by
    by_contra hne
    exact h ⟨heq ▸ hspace, hne⟩
  rcases skipRegMask_cases cfg with hmask | hmask <;> rw [hmask]
  · rw [fits_F00F, hid]
    have hsmall : w.toNat % 16 < 4096 := (Nat.mod_lt _ (by decide)).trans (by decide : 16 < 4096)
    exact ⟨fun heq => eq_of_mul_4096_add_eq hsmall (by decide) (heq.trans (Nat.add_zero _).symm),
      fun ⟨hhigh, hzero⟩ => by rw [hhigh, hzero, Nat.add_zero]⟩
  · rw [fits_F000, hid, Nat.mul_left_inj (by decide)]
    exact ⟨fun heq => ⟨heq, hlow heq⟩, And.left⟩

theorem sameRow_skipReg {w : Word} (h : ¬ SkipRegWithNibble w) {space : Nat} (hspace : space = 5 ∨ space = 9)
    {id : Word} (hid : id.toNat = space * 4096) (o : Op) (cfg cfg' : Config) :
    SameRow w ⟨o, id, skipRegMask cfg⟩ ⟨o, id, skipRegMask cfg'⟩ :=
  ⟨rfl, Bool.eq_iff_iff.mpr ((fits_skipReg_iff h hspace hid o cfg).trans (fits_skipReg_iff h hspace hid o cfg').symm)⟩

/-- No configuration point decides any other opcode. -/
theorem decodeWith_of_not_skipRegWithNibble {w : Word} (h : ¬ SkipRegWithNibble w) (cfg : Config) :
    decodeWith cfg w = decode w := by
  refine decodeWith_congr ?_
  have hsame : ∀ d, SameRow w d d := fun d => ⟨rfl, rfl⟩
  have hse := sameRow_skipReg h (.inl rfl) (id := 0x5000#16) rfl .seReg cfg Machine.decidedConfig
  have hsne := sameRow_skipReg h (.inr rfl) (id := 0x9000#16) rfl .sneReg cfg Machine.decidedConfig
  simp [decodeTable, tableUpper, tableLower, hsame, hse, hsne]

/-! ### The table without the check of the low nibble -/

/-- The decided configuration with `SKIP_REG_STRICT` off. -/
def laxConfig : Config := { Machine.decidedConfig with skipRegStrict := false }

theorem decodeTable_of_lax {cfg : Config} (h : cfg.skipRegStrict = false) :
    decodeTable cfg = decodeTable laxConfig := by
  simp [decodeTable, tableUpper, skipRegMask, laxConfig, h]

theorem decodeTable_of_strict {cfg : Config} (h : cfg.skipRegStrict = true) :
    decodeTable cfg = decodeTable Machine.decidedConfig := by
  simp [decodeTable, tableUpper, skipRegMask, Machine.decidedConfig, h]

/-- Without the check, a row of the register-register skips still agrees with no other row on the bits both masks
keep. -/
theorem eq_skipReg_row_of_id_and_mask_eq : ∀ d ∈ decodeTable laxConfig, ∀ e ∈ decodeTable laxConfig,
    d.op ∈ [Op.seReg, Op.sneReg] → d.id &&& e.mask = e.id &&& d.mask → e = d := by
  decide

/-- Without the check, an opcode that fits a row of the register-register skips is decoded by that row. -/
theorem decodeWith_lax_of_fits {cfg : Config} (hlax : cfg.skipRegStrict = false) {d : Descriptor} {w : Word}
    (hmem : d ∈ decodeTable laxConfig) (hop : d.op ∈ [Op.seReg, Op.sneReg]) (hfit : d.fits w = true) :
    decodeWith cfg w = .ok (d.op.instr w) := by
  obtain ⟨e, hscan⟩ := Option.isSome_iff_exists.mp
    (List.find?_isSome (p := fun r : Descriptor => r.fits w).mpr ⟨d, hmem, hfit⟩)
  have hfit' : e.fits w = true := List.find?_some (p := fun r : Descriptor => r.fits w) hscan
  obtain rfl := eq_skipReg_row_of_id_and_mask_eq d hmem e (List.mem_of_find?_eq_some hscan) hop
    (id_and_mask_eq_of_fits hfit hfit')
  simp only [decodeWith, decodeTable_of_lax hlax, hscan]

/-- Any opcode of the skip's space is decoded to it, with its own two registers. -/
theorem decodeWith_lax_seReg {cfg : Config} (hlax : cfg.skipRegStrict = false) {w : Word}
    (hspace : w.toNat / 4096 = 5) : decodeWith cfg w = .ok (.seReg (fieldX w) (fieldY w)) := by
  refine decodeWith_lax_of_fits (d := ⟨.seReg, 0x5000#16, 0xF000#16⟩) hlax (by decide) (by decide) ?_
  rw [fits_F000, hspace]
  rfl

theorem decodeWith_lax_sneReg {cfg : Config} (hlax : cfg.skipRegStrict = false) {w : Word}
    (hspace : w.toNat / 4096 = 9) : decodeWith cfg w = .ok (.sneReg (fieldX w) (fieldY w)) := by
  refine decodeWith_lax_of_fits (d := ⟨.sneReg, 0x9000#16, 0xF000#16⟩) hlax (by decide) (by decide) ?_
  rw [fits_F000, hspace]
  rfl

theorem decodeWith_strict {cfg : Config} (hstrict : cfg.skipRegStrict = true) (w : Word) :
    decodeWith cfg w = decode w := by
  simp only [decode, decodeWith, decodeTable_of_strict hstrict]

end Sys2Proof
end

