-- ==== Sys2Proof/Proofs/ConfiguredMachine.lean ====
section
/-! The configured machine (00_scope.md R8): its instructions, its step, RUN, RESET and the budget. -/

namespace Sys2Proof.Machine

/-! ### The instructions -/

section
variable {cfg : Config} (x y : Reg) (kk : Byte) (s : State)

theorem addImmWith_of_unchanged (h : cfg.addiVf = .unchanged) : addImmWith cfg x kk s = exec (.addImm x kk) s := by
  simp only [addImmWith, h, exec_addImm]

/-- The common end of OR, AND and XOR at the decided `LOGIC_VF`. -/
theorem finishLogic_of_unchanged (h : cfg.logicVf = .unchanged) (r : Byte) : finishLogic cfg s x r = finish s x r := by
  simp only [finishLogic, h]

theorem subWith_of_notBorrow (h : cfg.subVf = .notBorrow) : subWith cfg x y s = exec (.sub x y) s := by
  rw [subWith, h, exec_sub]

theorem subnWith_of_notBorrow (h : cfg.subVf = .notBorrow) : subnWith cfg x y s = exec (.subn x y) s := by
  rw [subnWith, h, exec_subn]

theorem shrWith_of_vx (h : cfg.shiftSrc = .vx) : shrWith cfg x y s = exec (.shr x y) s := by
  rw [shrWith_eq, h, exec_shr, shiftSource_vx]

theorem shlWith_of_vx_of_bit (hsrc : cfg.shiftSrc = .vx) (hbit : cfg.shiftVf = .bit) :
    shlWith cfg x y s = exec (.shl x y) s := by
  rw [shlWith_eq, hsrc, hbit, exec_shl, shiftSource_vx]

theorem bulkCount_eq_decided (h : cfg.bulkInclusive = true) : bulkCount cfg x = bulkCount decidedConfig x :=
  bulkCount_of_inclusive h x

theorem bulkIndex_eq_decided (h : cfg.bulkI = .unchanged) (i : Word) :
    bulkIndex cfg x i = bulkIndex decidedConfig x i := by
  rw [bulkIndex, h, bulkIndex_decided]

theorem storeRegsWith_of_inclusive (hincl : cfg.bulkInclusive = true) (hI : cfg.bulkI = .unchanged) :
    storeRegsWith cfg x s = exec (.storeRegs x) s := by
  simp only [exec_storeRegs, storeRegsWith, bulkCount_eq_decided x hincl, bulkIndex_eq_decided x hI]

theorem loadRegsWith_of_inclusive (hincl : cfg.bulkInclusive = true) (hI : cfg.bulkI = .unchanged) :
    loadRegsWith cfg x s = exec (.loadRegs x) s := by
  simp only [exec_loadRegs, loadRegsWith, bulkCount_eq_decided x hincl, bulkIndex_eq_decided x hI]

end

/-- An instruction whose rule names no configuration point means the same at any configuration. -/
theorem execWith_of_no_point (cfg : Config) (draws : Nat → Byte) {i : Instr} (s : State)
    (h : namesConfigurationPoint i = false) : execWith cfg draws i s = exec i s := by
  cases i
  case addImm | orReg | andReg | xorReg | sub | shr | subn | shl | rnd | storeRegs | loadRegs => cases h
  all_goals rfl

/-! ### The step -/

section
variable {cfg : Config} {draws : Nat → Byte} {s : State} {op : Word}

theorem stepWith_of_fetch_error {e : Fault} (hf : fetch s = .error e) : stepWith cfg draws s = .fault e := by
  simp [stepWith, hf]

theorem stepWith_of_decode_ok {i : Instr} (hf : fetch s = .ok op) (hd : decodeWith cfg op = .ok i) :
    stepWith cfg draws s = execWith cfg draws i s := by
  simp [stepWith, hf, hd]

theorem stepWith_of_decode_error {r : Reject} (hf : fetch s = .ok op) (hd : decodeWith cfg op = .error r) :
    stepWith cfg draws s = .fault (.invalidInstruction s.pc op) := by
  simp [stepWith, hf, hd]

/-- At an opcode `5xyn` or `9xyn` with n not 0 the step is a skip or an error, as `SKIP_REG_STRICT` says. -/
theorem stepWith_of_skipRegWithNibble {i : Instr} (hf : fetch s = .ok op) (hop : SkipRegWithNibble op)
    (hlax : cfg.skipRegStrict = false → decodeWith cfg op = .ok i) (hi : namesConfigurationPoint i = false) :
    stepWith cfg draws s = if cfg.skipRegStrict = true then .fault (.invalidInstruction s.pc op) else exec i s := by
  obtain ⟨hspace, hlow⟩ := hop
  split
  case isTrue hstrict =>
    exact stepWith_of_decode_error hf ((decodeWith_strict hstrict op).trans (decode_of_lowNibble_ne_zero hspace hlow))
  case isFalse hstrict =>
    rw [stepWith_of_decode_ok hf (hlax (Bool.eq_false_of_not_eq_true hstrict)), execWith_of_no_point cfg draws s hi]

/-- The two registers of an opcode `oxyn`, read from its number. -/
theorem fields_of_toNat {o n : Nat} {x y : Reg} (hn : n < 16) (h : op.toNat = o * 4096 + x.val * 256 + y.val * 16 + n) :
    op.toNat / 4096 = o ∧ op.toNat % 16 = n ∧ fieldX op = x ∧ fieldY op = y := by
  refine ⟨by omega, by omega, Fin.ext ?_, Fin.ext ?_⟩
  · rw [fieldX_val]; omega
  · rw [fieldY_val]; omega

theorem stepWith_seReg (hf : fetch s = .ok op) {x y : Reg} {n : Nat} (hpos : 0 < n) (hn : n < 16)
    (h : op.toNat = 0x5000 + x.val * 256 + y.val * 16 + n) :
    stepWith cfg draws s =
      if cfg.skipRegStrict = true then .fault (.invalidInstruction s.pc op) else exec (.seReg x y) s := by
  obtain ⟨hspace, hlow, rfl, rfl⟩ := fields_of_toNat (o := 5) hn h
  exact stepWith_of_skipRegWithNibble hf ⟨.inl hspace, by omega⟩ (fun hlax => decodeWith_lax_seReg hlax hspace) rfl

theorem stepWith_sneReg (hf : fetch s = .ok op) {x y : Reg} {n : Nat} (hpos : 0 < n) (hn : n < 16)
    (h : op.toNat = 0x9000 + x.val * 256 + y.val * 16 + n) :
    stepWith cfg draws s =
      if cfg.skipRegStrict = true then .fault (.invalidInstruction s.pc op) else exec (.sneReg x y) s := by
  obtain ⟨hspace, hlow, rfl, rfl⟩ := fields_of_toNat (o := 9) hn h
  exact stepWith_of_skipRegWithNibble hf ⟨.inr hspace, by omega⟩ (fun hlax => decodeWith_lax_sneReg hlax hspace) rfl

/-! ### RUN -/

theorem runWith_succ_next {t : State} (n : Nat) (h : stepWith cfg draws s = .next t) :
    runWith cfg draws (n + 1) s = runWith cfg draws n t := by
  simp [runWith, h]

theorem runWith_succ_fault {e : Fault} (n : Nat) (h : stepWith cfg draws s = .fault e) :
    runWith cfg draws (n + 1) s = (s, .err e) := by
  simp [runWith, h]

theorem runWith_succ_refused {r : Refusal} (n : Nat) (h : stepWith cfg draws s = .refused r) :
    runWith cfg draws (n + 1) s = (s, .refused r) := by
  simp [runWith, h]

end

/-! ### The machine at the decided values -/

theorem stepWith_decided (s : State) : stepWith decidedConfig Config.randByte s = step s := by
  cases hf : fetch s with
  | error e => rw [stepWith_of_fetch_error hf, step_of_fetch_error hf]
  | ok op =>
    cases hd : decode op with
    | error r => rw [stepWith_of_decode_error hf hd, step_of_decode_error hf hd]
    | ok i => rw [stepWith_of_decode_ok hf hd, step_of_decode_ok hf hd, execWith_decided]

theorem runWith_decided (n : Nat) (s : State) : runWith decidedConfig Config.randByte n s = run n s := by
  induction n generalizing s with
  | zero => rfl
  | succ n ih =>
    cases hstep : step s with
    | next t => rw [runWith_succ_next n ((stepWith_decided s).trans hstep), run_succ_next n hstep, ih]
    | fault e => rw [runWith_succ_fault n ((stepWith_decided s).trans hstep), run_succ_fault n hstep]
    | refused r => rw [runWith_succ_refused n ((stepWith_decided s).trans hstep), run_succ_refused n hstep]

/-- With the decided font, reset memory lists nothing: it reads like the empty list, and both are canonical. -/
theorem resetMemory_decided : resetMemory decidedConfig = [] :=
  Memory.eq_of_alike (resetMemory_wf decidedConfig) (lo' := 0) rfl fun a _ => resetMemory_read decidedConfig a

theorem commandWith_decided (c : Command) (s : State) :
    commandWith decidedConfig Config.randByte c s = command c s := by
  cases c
  case run n => exact runWith_decided n s
  case reset => simp only [commandWith, resetMemory_decided, command, resetCommand]
  all_goals rfl

/-! ### RESET and the other commands -/

/-- The memory of a fresh state is the one part of it that the font decides. -/
theorem unchanged_freshRegisters (m m' : Memory) (rng : Nat) :
    Unchanged [.mem] (freshRegisters m rng) (freshRegisters m' rng) :=
  unchanged_setMem (freshRegisters m rng) m'

theorem commandWith_of_other (cfg : Config) (draws : Nat → Byte) {c : Command} (s : State)
    (hrun : ∀ n : Nat, c ≠ .run n) (hreset : c ≠ .reset) : commandWith cfg draws c s = command c s := by
  cases c
  case run n => exact absurd rfl (hrun n)
  case reset => exact absurd rfl hreset
  all_goals rfl

/-- The budget is the floor of the quotient. -/
theorem tickBudget_floor (cfg : Config) (num : Nat) {den : Nat} (hden : 0 < den) :
    tickBudget cfg num den * den ≤ cfg.ips * num ∧ cfg.ips * num < (tickBudget cfg num den + 1) * den :=
  ⟨Nat.div_mul_le_self _ _, Nat.mul_comm _ den ▸ Nat.lt_mul_div_succ _ hden⟩

/-- Settles O60: clause by clause, the operation or the table at each configuration against that at the decided one. -/
theorem everyConfigurationPointIsAnArgument : Obligations.EveryConfigurationPointIsAnArgument := by
  refine ⟨rfl, stepWith_decided, commandWith_decided, fun cfg draws s x y kk => ?operations,
    fun cfg draws i s hi => execWith_of_no_point cfg draws s hi, fun cfg draws x s count hcount => ?bulk,
    fun cfg draws s hpc => stepWith_of_fetch_error (fetch_beyond_memory hpc),
    fun cfg op hop => decodeWith_of_not_skipRegWithNibble hop cfg, fun cfg draws s op hpc hop => ?step,
    fun cfg draws n s t e => ⟨rfl, runWith_succ_next n, runWith_succ_fault n⟩, fun cfg draws s => ?reset,
    fun cfg draws c s => commandWith_of_other cfg draws s, fun cfg num den => tickBudget_floor cfg num⟩
  case operations =>
    exact ⟨rfl, addImmWith_of_unchanged x kk s, rfl, rfl, rfl,
      fun h => ⟨finishLogic_of_unchanged x s h _, finishLogic_of_unchanged x s h _, finishLogic_of_unchanged x s h _⟩,
      rfl, rfl, fun h => ⟨subWith_of_notBorrow x y s h, subnWith_of_notBorrow x y s h⟩, rfl, shrWith_of_vx x y s, rfl,
      shlWith_of_vx_of_bit x y s, rfl, rfl, rfl,
      fun hincl hI => ⟨storeRegsWith_of_inclusive x s hincl hI, loadRegsWith_of_inclusive x s hincl hI⟩⟩
  case bulk =>
    refine ⟨fun h => ⟨storeRegsWith_beyond_memory hcount.symm h, loadRegsWith_beyond_memory hcount.symm h⟩, fun h =>
      ⟨fun hw => ?store, ?load⟩⟩
    case store =>
      obtain ⟨t, hnext, hI, hstored, houtside, hrest⟩ := storeRegsWith_inside_memory hcount.symm hw h
      exact ⟨t, hnext, hstored, houtside, hI ▸ bulkIndex_toNat cfg x s.I, hrest⟩
    case load =>
      obtain ⟨t, hnext, hI, hloaded, hrest⟩ := loadRegsWith_inside_memory hcount.symm h
      exact ⟨t, hnext, hloaded, hI ▸ bulkIndex_toNat cfg x s.I, hrest⟩
  case step =>
    have hfetch := fetch_of_opcodeAtPc hpc hop
    exact ⟨fun i => stepWith_of_decode_ok hfetch, fun r => stepWith_of_decode_error hfetch, fun x y n hpos hn =>
      ⟨stepWith_seReg hfetch hpos hn, stepWith_sneReg hfetch hpos hn⟩⟩
  case reset =>
    refine ⟨freshRegisters (resetMemory cfg) s.rng, rfl, fun d r => ?glyph, fun a ha => ?zero, ?canonical,
      unchanged_freshRegisters [] _ s.rng, fun hrng => congrArg (freshRegisters (resetMemory cfg)) hrng.symm⟩
    case glyph => rw [freshRegisters_mem, resetMemory_read, resetByte_glyph]
    case zero => rw [freshRegisters_mem, resetMemory_read, resetByte_outside cfg ha]
    case canonical => rw [freshRegisters_mem, resetMemory_wf]

end Sys2Proof.Machine
end
